-- ==== Sys2Proof/Word.lean ====
section
/-!
DEFINITION. The two widths of the engine (00_scope.md R5: `DATA_WIDTH` 8, `ADDR_WIDTH` 16). Arithmetic on both is modulo
the width (00_scope.md section 6: `+_8`, `+_16`), which is `BitVec`'s own addition.
-/

namespace Sys2Proof

/-- A register, a memory cell, an opcode, a one-byte operand. -/
abbrev Byte := BitVec 8

/-- The program counter, an address, a two-byte operand. -/
abbrev Word := BitVec 16

end Sys2Proof
end

