-- ==== Sys2Proof/Config.lean ====
section
/-!
DEFINITION. The parameters of 00_scope.md R5. `MEM_SIZE`, `RESET_VECTOR` and `LOAD_ORIGIN` are the source's; the others
are decisions of 92_eei_decisions.md with the default the spec gives. `WORD_WRAP_AT_TOP` and `PC_WRAP` (both true) are the
wrap of 16-bit addition and have no switch here (log 4, log 5). `OPCODE_MAP` is `opcodeRows` in Decode.lean. `STEP_BUDGET`
is none (log 13).
-/

namespace Sys2Proof.Config

/-- `MEM_SIZE`: addresses 0x0000 to 0xFFFF. -/
def memSize : Nat := 65536

/-- `RESET_VECTOR`: the low byte's cell; the high byte stands in the next one (R171). -/
def resetVector : Word := 0xFFFC

/-- `LOAD_ORIGIN`: the first cell `load_program` writes (R39, R174). -/
def loadOrigin : Word := 0x8000

/-- `LOAD_CAPACITY`: the longest image `load_program` accepts (R175; D7, log 7). DESIGN CHOICE of the spec, safe. -/
def loadCapacity : Nat := 0x7FFC

/-- `BRANCH_OFFSET_SIGNED`: the offset byte is zero-extended (R136; D2, log 2). DESIGN CHOICE of the spec, unsafe for
offsets 0x80 to 0xFF. -/
def branchOffsetSigned : Bool := false

/-- `ZP_POINTER_WRAP`: the high byte of a pointer at 0x00FF is read from 0x0100 (R74; D3, log 3). DESIGN CHOICE of the
spec, unsafe in that one case. -/
def zpPointerWrap : Bool := false

end Sys2Proof.Config
end

