-- ==== Sys2Proof/Syntax.lean ====
section
/-!
DEFINITION. The instruction set as syntax: the addressing-mode tags (40_dispatch_and_addressing.md R66), the handlers an
opcode-table entry can name (R79), and `Instr`, one constructor per row of opcode_table.json (30_encoding.md R57). A
constructor carries the operand its format has: `d8` for `OP_D8`, `d16` for `OP_D16`, nothing for `OP` (R52).
-/

namespace Sys2Proof

/-- The closed mode set of R66. `none` is the tag of the implied forms and of the accumulator form of ASL. -/
inductive Mode where
  | immediate
  | zeroPage
  | zeroPageX
  | zeroPageY
  | absolute
  | absoluteX
  | absoluteY
  | indirectX
  | indirectY
  | none
deriving DecidableEq, Repr

/-- The handlers of 41_load_transfer_increment.md, 42_logic_shift_bittest.md and 43_branch_halt.md. ASL has two: the
accumulator form and the memory forms (R119). -/
inductive Handler where
  | lda
  | tax
  | inx
  | and
  | aslAccumulator
  | aslMemory
  | bit
  | bcs
  | beq
  | brk
deriving DecidableEq, Repr

/-- Whether the handler uses an effective address (R79). -/
def Handler.usesAddress : Handler → Bool
  | .lda | .and | .aslMemory | .bit | .bcs | .beq => true
  | .tax | .inx | .aslAccumulator | .brk => false

/-- One populated entry of the opcode table: what a byte maps to (R50, R58). -/
structure Entry where
  handler : Handler
  mode    : Mode
deriving DecidableEq, Repr

/-- The 28 forms of R57, in opcode order. -/
inductive Instr where
  | brk
  | aslZeroPage (d8 : Byte)
  | aslAccumulator
  | aslAbsolute (d16 : Word)
  | aslZeroPageX (d8 : Byte)
  | aslAbsoluteX (d16 : Word)
  | andIndirectX (d8 : Byte)
  | bitZeroPage (d8 : Byte)
  | andZeroPage (d8 : Byte)
  | andImmediate (d8 : Byte)
  | bitAbsolute (d16 : Word)
  | andAbsolute (d16 : Word)
  | andIndirectY (d8 : Byte)
  | andZeroPageX (d8 : Byte)
  | andAbsoluteY (d16 : Word)
  | andAbsoluteX (d16 : Word)
  | ldaIndirectX (d8 : Byte)
  | ldaZeroPage (d8 : Byte)
  | ldaImmediate (d8 : Byte)
  | tax
  | ldaAbsolute (d16 : Word)
  | bcs (d8 : Byte)
  | ldaIndirectY (d8 : Byte)
  | ldaZeroPageX (d8 : Byte)
  | ldaAbsoluteY (d16 : Word)
  | ldaAbsoluteX (d16 : Word)
  | inx
  | beq (d8 : Byte)
deriving DecidableEq, Repr

/-- The handler and mode of each form: the "Mnemonic" and "Mode" columns of R57 (a branch's Immediate-style offset has the
mode Immediate, R137, R138). -/
def Instr.entry : Instr → Entry
  | .brk            => ⟨.brk, .none⟩
  | .aslZeroPage _  => ⟨.aslMemory, .zeroPage⟩
  | .aslAccumulator => ⟨.aslAccumulator, .none⟩
  | .aslAbsolute _  => ⟨.aslMemory, .absolute⟩
  | .aslZeroPageX _ => ⟨.aslMemory, .zeroPageX⟩
  | .aslAbsoluteX _ => ⟨.aslMemory, .absoluteX⟩
  | .andIndirectX _ => ⟨.and, .indirectX⟩
  | .bitZeroPage _  => ⟨.bit, .zeroPage⟩
  | .andZeroPage _  => ⟨.and, .zeroPage⟩
  | .andImmediate _ => ⟨.and, .immediate⟩
  | .bitAbsolute _  => ⟨.bit, .absolute⟩
  | .andAbsolute _  => ⟨.and, .absolute⟩
  | .andIndirectY _ => ⟨.and, .indirectY⟩
  | .andZeroPageX _ => ⟨.and, .zeroPageX⟩
  | .andAbsoluteY _ => ⟨.and, .absoluteY⟩
  | .andAbsoluteX _ => ⟨.and, .absoluteX⟩
  | .ldaIndirectX _ => ⟨.lda, .indirectX⟩
  | .ldaZeroPage _  => ⟨.lda, .zeroPage⟩
  | .ldaImmediate _ => ⟨.lda, .immediate⟩
  | .tax            => ⟨.tax, .none⟩
  | .ldaAbsolute _  => ⟨.lda, .absolute⟩
  | .bcs _          => ⟨.bcs, .immediate⟩
  | .ldaIndirectY _ => ⟨.lda, .indirectY⟩
  | .ldaZeroPageX _ => ⟨.lda, .zeroPageX⟩
  | .ldaAbsoluteY _ => ⟨.lda, .absoluteY⟩
  | .ldaAbsoluteX _ => ⟨.lda, .absoluteX⟩
  | .inx            => ⟨.inx, .none⟩
  | .beq _          => ⟨.beq, .immediate⟩

end Sys2Proof
end

