-- ==== Sys2Proof/WellFormed.lean ====
section
/-!
DEFINITION. What can be ill-formed. No operand value is illegal (30_encoding.md R59), so an instruction has no check on its
operands; the spec's one validity condition is on entries of the opcode table (40_dispatch_and_addressing.md R79, checked
"once at table-build time"), and an instruction is well-formed when the entry it stands for is.
-/

namespace Sys2Proof

/-- R79: an entry whose handler uses an effective address has a mode other than `none`; equivalently, an entry with mode
`none` has a handler that uses no address. -/
def Entry.wf (e : Entry) : Bool := !e.handler.usesAddress || e.mode != .none

/-- An instruction stands for a valid entry of the table. -/
def Instr.wf (i : Instr) : Bool := i.entry.wf

end Sys2Proof
end

