-- ==== Sys2Proof/Decode.lean ====
section
/-!
DEFINITION. The opcode map as data (30_encoding.md R57, R58), the decoder, the encoder and the assembler text of R61. The 24
bytes other than 0x00, 0xA9, 0xAA and 0xE8 are PRESUMED (general knowledge of the MOS 6502, decision D1; log 1, unsafe).
-/

namespace Sys2Proof

/-! ### Byte order -/

/-- `{hi, lo}`, that is `hi * 256 + lo` (00_scope.md section 6). -/
def joinBytes (hi lo : Byte) : Word := BitVec.ofNat 16 (hi.toNat * 256 + lo.toNat)

/-- Bits 7 to 0 of a word. -/
def lowByte (w : Word) : Byte := BitVec.ofNat 8 w.toNat

/-- Bits 15 to 8 of a word. -/
def highByte (w : Word) : Byte := BitVec.ofNat 8 (w.toNat / 256)

/-! ### Lengths -/

/-- How many operand bytes follow the opcode (R51; 90_conflicts.md C1: Immediate is 1). -/
def Mode.operandBytes : Mode → Nat
  | .none => 0
  | .absolute | .absoluteX | .absoluteY => 2
  | .immediate | .zeroPage | .zeroPageX | .zeroPageY | .indirectX | .indirectY => 1

/-- The instruction's length in bytes: the opcode and the mode's operand bytes (R51). -/
def Instr.length (i : Instr) : Nat := 1 + i.entry.mode.operandBytes

/-! ### The opcode map -/

/-- One row of R57. -/
structure OpcodeRow where
  opcode : Byte
  entry  : Entry
deriving DecidableEq, Repr

/-- Rows 0x00 to 0x1E of R57: BRK and ASL. -/
def opcodeRowsAsl : List OpcodeRow :=
  [⟨0x00, ⟨.brk, .none⟩⟩,
   ⟨0x06, ⟨.aslMemory, .zeroPage⟩⟩,
   ⟨0x0A, ⟨.aslAccumulator, .none⟩⟩,
   ⟨0x0E, ⟨.aslMemory, .absolute⟩⟩,
   ⟨0x16, ⟨.aslMemory, .zeroPageX⟩⟩,
   ⟨0x1E, ⟨.aslMemory, .absoluteX⟩⟩]

/-- Rows 0x21 to 0x3D of R57: AND and BIT (BIT Absolute by decision D11, log 11). -/
def opcodeRowsAnd : List OpcodeRow :=
  [⟨0x21, ⟨.and, .indirectX⟩⟩,
   ⟨0x24, ⟨.bit, .zeroPage⟩⟩,
   ⟨0x25, ⟨.and, .zeroPage⟩⟩,
   ⟨0x29, ⟨.and, .immediate⟩⟩,
   ⟨0x2C, ⟨.bit, .absolute⟩⟩,
   ⟨0x2D, ⟨.and, .absolute⟩⟩,
   ⟨0x31, ⟨.and, .indirectY⟩⟩,
   ⟨0x35, ⟨.and, .zeroPageX⟩⟩,
   ⟨0x39, ⟨.and, .absoluteY⟩⟩,
   ⟨0x3D, ⟨.and, .absoluteX⟩⟩]

/-- Rows 0xA1 to 0xF0 of R57: LDA, TAX, INX and the branches. -/
def opcodeRowsLda : List OpcodeRow :=
  [⟨0xA1, ⟨.lda, .indirectX⟩⟩,
   ⟨0xA5, ⟨.lda, .zeroPage⟩⟩,
   ⟨0xA9, ⟨.lda, .immediate⟩⟩,
   ⟨0xAA, ⟨.tax, .none⟩⟩,
   ⟨0xAD, ⟨.lda, .absolute⟩⟩,
   ⟨0xB0, ⟨.bcs, .immediate⟩⟩,
   ⟨0xB1, ⟨.lda, .indirectY⟩⟩,
   ⟨0xB5, ⟨.lda, .zeroPageX⟩⟩,
   ⟨0xB9, ⟨.lda, .absoluteY⟩⟩,
   ⟨0xBD, ⟨.lda, .absoluteX⟩⟩,
   ⟨0xE8, ⟨.inx, .none⟩⟩,
   ⟨0xF0, ⟨.beq, .immediate⟩⟩]

/-- `OPCODE_MAP` (R5): the 28 rows of R57. A corrected byte changes one row here, and the encoder's line for it. -/
def opcodeRows : List OpcodeRow := opcodeRowsAsl ++ opcodeRowsAnd ++ opcodeRowsLda

/-- The 256-entry table (R50): a byte's entry, or undefined (R59). -/
def opcodeTable (op : Byte) : Option Entry :=
  (opcodeRows.find? (·.opcode == op)).map (·.entry)

/-! ### Decoding -/

/-- Why bytes are no instruction. `illegalOpcode`: the byte has no row (R59). `truncated`: the list ends inside the
instruction, which fetching from memory never meets. -/
inductive DecodeError where
  | illegalOpcode (opcode : Byte)
  | truncated
deriving DecidableEq, Repr

/-- The form an entry stands for, with its operand from the first and second operand bytes (R52, R54, R55). A pair that is
no row of R57 has none. -/
def Entry.instr (o1 o2 : Byte) : Entry → Option Instr
  | ⟨.brk, .none⟩            => some .brk
  | ⟨.aslMemory, .zeroPage⟩  => some (.aslZeroPage o1)
  | ⟨.aslAccumulator, .none⟩ => some .aslAccumulator
  | ⟨.aslMemory, .absolute⟩  => some (.aslAbsolute (joinBytes o2 o1))
  | ⟨.aslMemory, .zeroPageX⟩ => some (.aslZeroPageX o1)
  | ⟨.aslMemory, .absoluteX⟩ => some (.aslAbsoluteX (joinBytes o2 o1))
  | ⟨.and, .indirectX⟩       => some (.andIndirectX o1)
  | ⟨.bit, .zeroPage⟩        => some (.bitZeroPage o1)
  | ⟨.and, .zeroPage⟩        => some (.andZeroPage o1)
  | ⟨.and, .immediate⟩       => some (.andImmediate o1)
  | ⟨.bit, .absolute⟩        => some (.bitAbsolute (joinBytes o2 o1))
  | ⟨.and, .absolute⟩        => some (.andAbsolute (joinBytes o2 o1))
  | ⟨.and, .indirectY⟩       => some (.andIndirectY o1)
  | ⟨.and, .zeroPageX⟩       => some (.andZeroPageX o1)
  | ⟨.and, .absoluteY⟩       => some (.andAbsoluteY (joinBytes o2 o1))
  | ⟨.and, .absoluteX⟩       => some (.andAbsoluteX (joinBytes o2 o1))
  | ⟨.lda, .indirectX⟩       => some (.ldaIndirectX o1)
  | ⟨.lda, .zeroPage⟩        => some (.ldaZeroPage o1)
  | ⟨.lda, .immediate⟩       => some (.ldaImmediate o1)
  | ⟨.tax, .none⟩            => some .tax
  | ⟨.lda, .absolute⟩        => some (.ldaAbsolute (joinBytes o2 o1))
  | ⟨.bcs, .immediate⟩       => some (.bcs o1)
  | ⟨.lda, .indirectY⟩       => some (.ldaIndirectY o1)
  | ⟨.lda, .zeroPageX⟩       => some (.ldaZeroPageX o1)
  | ⟨.lda, .absoluteY⟩       => some (.ldaAbsoluteY (joinBytes o2 o1))
  | ⟨.lda, .absoluteX⟩       => some (.ldaAbsoluteX (joinBytes o2 o1))
  | ⟨.inx, .none⟩            => some .inx
  | ⟨.beq, .immediate⟩       => some (.beq o1)
  | _                        => none

/-- The first instruction of a byte sequence and the bytes after it. Total (R60): the opcode byte alone selects the row and
the length (R53), then the operand bytes are taken. -/
def decode : List Byte → Except DecodeError (Instr × List Byte)
  | [] => .error .truncated
  | op :: rest =>
    match opcodeTable op with
    | none => .error (.illegalOpcode op)
    | some e =>
      if rest.length < e.mode.operandBytes then .error .truncated
      else
        match e.instr (rest.getD 0 0) (rest.getD 1 0) with
        | some i => .ok (i, rest.drop e.mode.operandBytes)
        | none   => .error (.illegalOpcode op)

/-- The bytes of an instruction numbered as opcode_table.json numbers its bits (bit 0 is the least significant bit of the
first byte), in memory order, with zero bytes up to the longest instruction. -/
def tableBytes (nbits w : Nat) : List Byte :=
  let v := w % 2 ^ nbits
  [BitVec.ofNat 8 v, BitVec.ofNat 8 (v / 256), BitVec.ofNat 8 (v / 65536)]

/-- What the decoder reads from an instruction whose bits are `w` (for the host). -/
def decodeTableWord (nbits w : Nat) : Option Instr :=
  match decode (tableBytes nbits w) with
  | .ok (i, _) => some i
  | .error _   => none

/-! ### Encoding -/

/-- The opcode byte of each form, written out from R57 independently of `opcodeRows`. -/
def Instr.opcode : Instr → Byte
  | .brk            => 0x00
  | .aslZeroPage _  => 0x06
  | .aslAccumulator => 0x0A
  | .aslAbsolute _  => 0x0E
  | .aslZeroPageX _ => 0x16
  | .aslAbsoluteX _ => 0x1E
  | .andIndirectX _ => 0x21
  | .bitZeroPage _  => 0x24
  | .andZeroPage _  => 0x25
  | .andImmediate _ => 0x29
  | .bitAbsolute _  => 0x2C
  | .andAbsolute _  => 0x2D
  | .andIndirectY _ => 0x31
  | .andZeroPageX _ => 0x35
  | .andAbsoluteY _ => 0x39
  | .andAbsoluteX _ => 0x3D
  | .ldaIndirectX _ => 0xA1
  | .ldaZeroPage _  => 0xA5
  | .ldaImmediate _ => 0xA9
  | .tax            => 0xAA
  | .ldaAbsolute _  => 0xAD
  | .bcs _          => 0xB0
  | .ldaIndirectY _ => 0xB1
  | .ldaZeroPageX _ => 0xB5
  | .ldaAbsoluteY _ => 0xB9
  | .ldaAbsoluteX _ => 0xBD
  | .inx            => 0xE8
  | .beq _          => 0xF0

/-- The operand bytes of each form, low byte first (R35, R52). -/
def Instr.operand : Instr → List Byte
  | .brk | .aslAccumulator | .tax | .inx => []
  | .aslZeroPage d8 | .aslZeroPageX d8 | .andIndirectX d8 | .bitZeroPage d8 | .andZeroPage d8 | .andImmediate d8
  | .andIndirectY d8 | .andZeroPageX d8 | .ldaIndirectX d8 | .ldaZeroPage d8 | .ldaImmediate d8 | .bcs d8
  | .ldaIndirectY d8 | .ldaZeroPageX d8 | .beq d8 => [d8]
  | .aslAbsolute d16 | .aslAbsoluteX d16 | .bitAbsolute d16 | .andAbsolute d16 | .andAbsoluteY d16
  | .andAbsoluteX d16 | .ldaAbsolute d16 | .ldaAbsoluteY d16 | .ldaAbsoluteX d16 => [lowByte d16, highByte d16]

/-- The bytes of an instruction at increasing addresses, opcode first (R35, R50, R52). -/
def encode (i : Instr) : List Byte := i.opcode :: i.operand

/-! ### Assembler text -/

/-- One upper-case hexadecimal digit. -/
def hexDigit (n : Nat) : String :=
  match n % 16 with
  | 10 => "A" | 11 => "B" | 12 => "C" | 13 => "D" | 14 => "E" | 15 => "F"
  | k => toString k

/-- Two hexadecimal digits. -/
def hexByte (b : Byte) : String := hexDigit (b.toNat / 16) ++ hexDigit b.toNat

/-- Four hexadecimal digits. -/
def hexWord (w : Word) : String := hexByte (highByte w) ++ hexByte (lowByte w)

/-- The mnemonic (R57). -/
def Handler.mnemonic : Handler → String
  | .lda => "LDA"
  | .tax => "TAX"
  | .inx => "INX"
  | .and => "AND"
  | .aslAccumulator | .aslMemory => "ASL"
  | .bit => "BIT"
  | .bcs => "BCS"
  | .beq => "BEQ"
  | .brk => "BRK"

/-- The operand text of R61 for the operand bytes `o1`, `o2` of a mode. Notation only: nothing depends on it (D16). -/
def Mode.operandText (o1 o2 : Byte) : Mode → String
  | .none      => ""
  | .immediate => " #$" ++ hexByte o1
  | .zeroPage  => " $" ++ hexByte o1
  | .zeroPageX => " $" ++ hexByte o1 ++ ",X"
  | .zeroPageY => " $" ++ hexByte o1 ++ ",Y"
  | .absolute  => " $" ++ hexWord (joinBytes o2 o1)
  | .absoluteX => " $" ++ hexWord (joinBytes o2 o1) ++ ",X"
  | .absoluteY => " $" ++ hexWord (joinBytes o2 o1) ++ ",Y"
  | .indirectX => " ($" ++ hexByte o1 ++ ",X)"
  | .indirectY => " ($" ++ hexByte o1 ++ "),Y"

/-- An instruction in the spec's assembler text (R61): a branch shows its raw offset byte, the accumulator form of ASL
shows `A`. -/
def Instr.asm (i : Instr) : String :=
  let o1 := i.operand.getD 0 0
  let o2 := i.operand.getD 1 0
  i.entry.handler.mnemonic ++
    match i.entry.handler with
    | .bcs | .beq => " +0x" ++ hexByte o1
    | .aslAccumulator => " A"
    | _ => i.entry.mode.operandText o1 o2

end Sys2Proof
end

