-- ==== Sys2Proof/Machine/State.lean ====
section
/-!
DEFINITION. The state of the engine, `(A, X, Y, P, pc, Mem, run_state)` (10_state.md, header), as plain data; the reasons a
step stops; and the state after reset.
-/

namespace Sys2Proof.Machine

/-- The causes of 60_exceptions.md R150. `illegalOpcode` is the only one a step can record in the state. The resolver
answers `invalidAddressingMode` when it is asked for an address under mode `None` (R76, R152), which the fixed table never
does. `loadOverflow` belongs to the host call `load_program` and is reported as `Refusal.loadOverflow`, never in
`run_state` (R153). -/
inductive FaultCause where
  | illegalOpcode
  | invalidAddressingMode
  | loadOverflow
deriving DecidableEq, Repr

/-- `run_state` (R26): the third value records the fault, the opcode value and the faulting address. -/
inductive RunState where
  | running
  | halted
  | faulted (cause : FaultCause) (opcode : Byte) (address : Word)
deriving DecidableEq, Repr

/-- The memory array (R25) as the list of its cells that differ from `unlistedByte`, by rising address. -/
abbrev Memory := List Host.Cell

/-- What a cell that is not listed reads as: memory is zero-initialised (R25, R170). -/
def unlistedByte : Byte := 0x00

/-- Every piece of state the spec gives the machine, and nothing else (R10 to R28). -/
structure State where
  /-- `accumulator` (R11) -/
  a : Byte
  /-- `index_x` (R12) -/
  x : Byte
  /-- `index_y` (R13) -/
  y : Byte
  /-- `status`: bit 0 Carry, 1 Zero, 2 InterruptDisable, 3 Decimal, 4 and 5 unused, 6 Overflow, 7 Negative (R16) -/
  p : Byte
  /-- `program_counter`: between steps the address of the next opcode (R14) -/
  pc : Word
  /-- the 65536 cells (R25) -/
  mem : Memory
  /-- the dispatch loop's state (R26) -/
  runState : RunState
deriving DecidableEq, Repr

/-- Why no step is taken: "Steps are taken only while `run_state = Running`" (R26, R65). Raised by `step` alone; no
instruction raises one, and an error condition of the engine is a next state whose `run_state` records it (R156). Safe: the
model stops where the engine takes no step either. -/
inductive Fault where
  /-- The loop has ended at a halt, or has not been entered; the host may call `interpret()`. Safe. -/
  | engineHalted
  /-- The loop has ended in a fault; the record is that of `run_state`. Safe. -/
  | engineFaulted (cause : FaultCause) (opcode : Byte) (address : Word)
deriving DecidableEq, Repr

/-- Why a request has no meaning. -/
inductive Refusal where
  /-- An instruction without a meaning. No arm of `exec` is refused in this model. Safe. -/
  | notModelled (mnemonic : String)
  /-- `load_program` of more than `LOAD_CAPACITY` bytes: refused, nothing written (R153, R175; log 7). Raised by
  `hostCommand`. Safe. -/
  | loadOverflow
  /-- A host command or an accessor read while the engine runs: the host has no move then (R183; log 12). Raised by
  `hostCommand` and `State.readRegisters`. Safe. -/
  | engineRunning
deriving DecidableEq, Repr

/-- What a step or a host command answers. -/
abbrev StepResult := Host.Outcome State Fault Refusal

/-- The state after `reset()` of a constructed engine: registers zero (R172), `pc` the reset vector's content, which is
0x0000 on zeroed memory (95_test_vectors.md Q4), memory zero (R170), and `run_state` as construction left it, `Halted`
(R170, decision D8; log 8, DESIGN CHOICE). No step is taken from it until the host enters the loop (log 16). -/
def State.reset : State :=
  { a := 0x00, x := 0x00, y := 0x00, p := 0x00, pc := 0x0000, mem := [], runState := .halted }

/-! ### One write per field -/

def State.setA (v : Byte) (s : State) : State := { s with a := v }
def State.setX (v : Byte) (s : State) : State := { s with x := v }
def State.setY (v : Byte) (s : State) : State := { s with y := v }
def State.setP (v : Byte) (s : State) : State := { s with p := v }
def State.setPc (v : Word) (s : State) : State := { s with pc := v }
def State.setMem (v : Memory) (s : State) : State := { s with mem := v }
def State.setRunState (v : RunState) (s : State) : State := { s with runState := v }

end Sys2Proof.Machine
end

