-- ==== Sys2Proof/Machine/Ops.lean ====
section
/-!
DEFINITION. The shared operations: the memory array and its four accesses (20_memory.md R30 to R33), the program counter's
advance (10_state.md R15), fault entry and loop entry (60_exceptions.md R156, R157; 70_reset_and_hazards.md R177), and the
fetch of an instruction's bytes (30_encoding.md R35).
-/

namespace Sys2Proof.Machine

/-! ### The memory array -/

/-- The byte at address `a`: the first entry for it, else what an unlisted cell reads as. -/
def Memory.get : Memory → Nat → Byte
  | [], _ => unlistedByte
  | (k, v) :: m, a => if k = a then v else Memory.get m a

/-- `m` without any entry for `a`. -/
def Memory.erase : Memory → Nat → Memory
  | [], _ => []
  | (k, v) :: m, a => if k = a then Memory.erase m a else (k, v) :: Memory.erase m a

/-- `m` with the entry `(a, v)` in front of the first entry of a higher address. -/
def Memory.insert : Memory → Nat → Byte → Memory
  | [], a, v => [(a, v)]
  | (k, w) :: m, a, v => if a < k then (a, v) :: (k, w) :: m else (k, w) :: Memory.insert m a v

/-- `m` with `v` at `a`, in the canonical form: a cell that again reads as an unlisted one is no longer listed. -/
def Memory.put (m : Memory) (a : Nat) (v : Byte) : Memory :=
  if v = unlistedByte then Memory.erase m a else Memory.insert (Memory.erase m a) a v

/-- Every address is at least `lo`, below `MEM_SIZE` and above the one before; no listed byte is the unlisted one. -/
def Memory.wfFrom : Nat → Memory → Bool
  | _, [] => true
  | lo, (k, v) :: m => decide (lo ≤ k) && decide (k < Config.memSize) && v != unlistedByte && Memory.wfFrom (k + 1) m

/-- The canonical form: addresses strictly rising inside the address space, no entry equal to what an unlisted cell reads
as. -/
def Memory.wf (m : Memory) : Bool := Memory.wfFrom 0 m

/-! ### The four access operations -/

/-- `read_byte` (R30): total, changes nothing. -/
def State.readByte (s : State) (addr : Word) : Byte := Memory.get s.mem addr.toNat

/-- `write_byte` (R31): total, overwrites in place. -/
def State.writeByte (addr : Word) (v : Byte) (s : State) : State := s.setMem (Memory.put s.mem addr.toNat v)

/-- `read_word` (R32): low byte at `addr`, high byte at `addr + 1` modulo 65536 (decision D4; log 4). -/
def State.readWord (s : State) (addr : Word) : Word := joinBytes (s.readByte (addr + 1)) (s.readByte addr)

/-- `write_word` (R33): low byte, then high byte; the same wrap. -/
def State.writeWord (addr v : Word) (s : State) : State :=
  (s.writeByte addr (lowByte v)).writeByte (addr + 1) (highByte v)

/-- `bytes` at rising addresses from `addr` (the copy of `load_program`, R174). -/
def State.writeBytes (addr : Word) : List Byte → State → State
  | [], s => s
  | b :: bs, s => State.writeBytes (addr + 1) bs (s.writeByte addr b)

/-! ### Program counter, fault entry, loop entry -/

/-- `pc <- pc +_16 n` (R15; decision D5, log 5). -/
def State.advancePc (n : Word) (s : State) : State := s.setPc (s.pc + n)

/-- `raise F(info)`: the engine's fault entry (R156). Nothing is saved, no vector is read, and no register or cell
changes; `run_state` records the cause, the opcode and the address (decision D6, log 6). -/
def State.raise (cause : FaultCause) (opcode : Byte) (address : Word) (s : State) : State :=
  s.setRunState (.faulted cause opcode address)

/-- Entry to the dispatch loop: `run_state <- Running` whatever it was (R27, R177). There is no return from a fault; this
is the only way on after one, and after a halt (R157). -/
def State.enterRun (s : State) : State := s.setRunState .running

/-! ### Fetch -/

/-- The bytes from `pc` on, as many as the longest instruction has. Reading a byte has no side effect (R38), so the ones
an instruction does not use cannot be observed. -/
def State.fetchBytes (s : State) : List Byte :=
  [s.readByte s.pc, s.readByte (s.pc + 1), s.readByte (s.pc + 2)]

/-- The instruction at `pc`, none where its opcode byte is undefined (R59, R60). -/
def State.fetch (s : State) : Option Instr :=
  match decode s.fetchBytes with
  | .ok (i, _) => some i
  | .error _   => none

/-- `bytes` at `pc` and the loop entered: the next step runs the instruction they are. -/
def State.placeAtPc (bytes : List Byte) (s : State) : State := (s.writeBytes s.pc bytes).enterRun

end Sys2Proof.Machine
end

