-- ==== Sys2Proof/Machine/Flags.lean ====
section
/-!
DEFINITION. The status register's flags (10_state.md R16 to R22) and the flag computations of every instruction
(40_dispatch_and_addressing.md R77; 42_logic_shift_bittest.md R119, R130).
-/

namespace Sys2Proof.Machine

/-- The named bits of `P` (R16). -/
inductive Flag where
  | carry
  | zero
  | interruptDisable
  | decimal
  | overflow
  | negative
deriving DecidableEq, Repr

/-- Each flag's bit number (R16). Bits 4 and 5 have no name. -/
def Flag.bit : Flag → Nat
  | .carry => 0
  | .zero => 1
  | .interruptDisable => 2
  | .decimal => 3
  | .overflow => 6
  | .negative => 7

/-- `P.f`. -/
def Flag.isSet (f : Flag) (p : Byte) : Bool := p.getLsbD f.bit

/-- `set_if(condition)` (R18): the bit is set when the condition is true and cleared otherwise; the other seven keep their
values. -/
def Flag.setIf (f : Flag) (condition : Bool) (p : Byte) : Byte :=
  if condition then p ||| BitVec.twoPow 8 f.bit else p &&& ~~~(BitVec.twoPow 8 f.bit)

/-- `SetZN(v)` (R77): Zero iff `v` is 0, Negative iff bit 7 of `v` is 1. -/
def setZN (v p : Byte) : Byte :=
  Flag.negative.setIf (v.getLsbD 7) (Flag.zero.setIf (decide (v = 0)) p)

/-- The byte shifted left by one: bit 7 discarded, bit 0 zero (R80, R119). -/
def shiftLeftOne (v : Byte) : Byte := v <<< (1 : Nat)

/-- The flags of ASL (R119) from the operand `v` before the shift: Carry is its bit 7 (R21), Zero and Negative come from the
shifted byte. -/
def setAsl (v p : Byte) : Byte := setZN (shiftLeftOne v) (Flag.carry.setIf (v.getLsbD 7) p)

/-- The flags of BIT (R130) from the accumulator `a` and the operand `m`: Zero from `a & m`, Negative and Overflow copied
from bits 7 and 6 of `m` (R20, R22). -/
def setBit (a m p : Byte) : Byte :=
  Flag.overflow.setIf (m.getLsbD 6) (Flag.negative.setIf (m.getLsbD 7) (Flag.zero.setIf (decide (a &&& m = 0)) p))

end Sys2Proof.Machine
end

