-- ==== Sys2Proof/Machine/Operands.lean ====
section
/-!
DEFINITION. Operand forms: extension of an operand byte (00_scope.md section 6), the effective address of every addressing
mode (40_dispatch_and_addressing.md R67 to R76, summary R81), and the resolver. The `ea` functions take the operand an
instruction carries; `resolve` is the resolver as the spec writes it, which reads the operand bytes from memory at `pc`.
-/

namespace Sys2Proof.Machine

/-- `zext_16(b)`. -/
def zext16 (b : Byte) : Word := b.setWidth 16

/-- `sext_16(b)`: `b` if `b < 128`, else `b + 0xFF00`. -/
def sext16 (b : Byte) : Word := if b.toNat < 128 then zext16 b else zext16 b + 0xFF00

/-- `Ext(d8)` of R135 under a setting of `BRANCH_OFFSET_SIGNED`. -/
def extOffset (signed : Bool) (d8 : Byte) : Word := if signed then sext16 d8 else zext16 d8

/-- `Ext(d8)` of the engine (R136; decision D2, log 2). -/
def branchDisplacement (d8 : Byte) : Word := extOffset Config.branchOffsetSigned d8

/-- `ZpPointer(p)` of R74 under a setting of `ZP_POINTER_WRAP`. -/
def zpPointerWith (wrap : Bool) (p : Byte) (s : State) : Word :=
  if wrap then joinBytes (s.readByte (zext16 (p + 1))) (s.readByte (zext16 p)) else s.readWord (zext16 p)

/-- `ZpPointer(p)` of the engine (R74; decision D3, log 3). -/
def zpPointer (p : Byte) (s : State) : Word := zpPointerWith Config.zpPointerWrap p s

/-! ### Effective addresses -/

/-- R68. -/
def eaZeroPage (d8 : Byte) : Word := zext16 d8

/-- R69: the index add wraps inside the zero page. -/
def eaZeroPageX (d8 : Byte) (s : State) : Word := zext16 (d8 + s.x)

/-- R70. -/
def eaZeroPageY (d8 : Byte) (s : State) : Word := zext16 (d8 + s.y)

/-- R72: modulo 65536. -/
def eaAbsoluteX (d16 : Word) (s : State) : Word := d16 + zext16 s.x

/-- R73: modulo 65536. -/
def eaAbsoluteY (d16 : Word) (s : State) : Word := d16 + zext16 s.y

/-- R74: `X` is added before the dereference, modulo 256. -/
def eaIndirectX (d8 : Byte) (s : State) : Word := zpPointer (d8 + s.x) s

/-- R75: `Y` is added after the dereference, modulo 65536. -/
def eaIndirectY (d8 : Byte) (s : State) : Word := zpPointer d8 s + zext16 s.y

/-! ### The resolver -/

/-- `Resolve(mode)` (R66 to R76): `pc` points at the first operand byte; the answer is the effective address and the state
with `pc` past the operand, every other piece of state unchanged. Mode `none` is the fault of R76. -/
def resolve (mode : Mode) (s : State) : Except FaultCause (Word × State) :=
  match mode with
  | .immediate => .ok (s.pc, s.advancePc 1)
  | .zeroPage  => .ok (eaZeroPage (s.readByte s.pc), s.advancePc 1)
  | .zeroPageX => .ok (eaZeroPageX (s.readByte s.pc) s, s.advancePc 1)
  | .zeroPageY => .ok (eaZeroPageY (s.readByte s.pc) s, s.advancePc 1)
  | .absolute  => .ok (s.readWord s.pc, s.advancePc 2)
  | .absoluteX => .ok (eaAbsoluteX (s.readWord s.pc) s, s.advancePc 2)
  | .absoluteY => .ok (eaAbsoluteY (s.readWord s.pc) s, s.advancePc 2)
  | .indirectX => .ok (eaIndirectX (s.readByte s.pc) s, s.advancePc 1)
  | .indirectY => .ok (eaIndirectY (s.readByte s.pc) s, s.advancePc 1)
  | .none      => .error .invalidAddressingMode

end Sys2Proof.Machine
end

