-- ==== Sys2Proof/Machine/Control.lean ====
section
/-!
DEFINITION. BCS, BEQ and BRK (43_branch_halt.md). A branch writes `pc` only; BRK writes `pc` and `run_state`.
-/

namespace Sys2Proof.Machine

/-- R135 under a given displacement, from a `pc` that is already past the offset byte. -/
def branchIf (cond : Bool) (displacement : Word) (s : State) : State :=
  if cond then s.advancePc displacement else s

/-- The handler of BCS on its offset byte (R135, R137). -/
def handleBcs (d8 : Byte) (s : State) : State := branchIf (Flag.carry.isSet s.p) (branchDisplacement d8) s

/-- The handler of BEQ on its offset byte (R135, R138). -/
def handleBeq (d8 : Byte) (s : State) : State := branchIf (Flag.zero.isSet s.p) (branchDisplacement d8) s

/-- R137. -/
def execBcs (d8 : Byte) (s : State) : StepResult := .next (handleBcs d8 (s.advancePc 2))

/-- R138. -/
def execBeq (d8 : Byte) (s : State) : StepResult := .next (handleBeq d8 (s.advancePc 2))

/-- The handler of BRK: the dispatch loop ends (R143). -/
def handleBrk (s : State) : State := s.setRunState .halted

/-- R143. -/
def execBrk (s : State) : StepResult := .next (handleBrk (s.advancePc 1))

end Sys2Proof.Machine
end

