-- ==== Sys2Proof/Machine/Load.lean ====
section
/-!
DEFINITION. LDA, TAX and INX (41_load_transfer_increment.md). A meaning is the whole step of its form: it starts with `pc` at
the opcode byte and takes the operand the instruction carries (log 17), resolves the address in the state before any write
(R82), moves `pc` past the instruction and runs the handler.
-/

namespace Sys2Proof.Machine

/-- The effect of LDA once its byte is read (R90). -/
def loadA (v : Byte) (s : State) : State := (s.setA v).setP (setZN v s.p)

/-- `LDA(addr)` (R90). -/
def handleLda (addr : Word) (s : State) : State := loadA (s.readByte addr) s

/-- R91; the byte the handler reads at the operand's own address is `d8`. -/
def execLdaImmediate (d8 : Byte) (s : State) : StepResult := .next (loadA d8 (s.advancePc 2))

/-- R92. -/
def execLdaZeroPage (d8 : Byte) (s : State) : StepResult := .next (handleLda (eaZeroPage d8) (s.advancePc 2))

/-- R93. -/
def execLdaZeroPageX (d8 : Byte) (s : State) : StepResult := .next (handleLda (eaZeroPageX d8 s) (s.advancePc 2))

/-- R94. -/
def execLdaAbsolute (d16 : Word) (s : State) : StepResult := .next (handleLda d16 (s.advancePc 3))

/-- R95. -/
def execLdaAbsoluteX (d16 : Word) (s : State) : StepResult := .next (handleLda (eaAbsoluteX d16 s) (s.advancePc 3))

/-- R96. -/
def execLdaAbsoluteY (d16 : Word) (s : State) : StepResult := .next (handleLda (eaAbsoluteY d16 s) (s.advancePc 3))

/-- R97. -/
def execLdaIndirectX (d8 : Byte) (s : State) : StepResult := .next (handleLda (eaIndirectX d8 s) (s.advancePc 2))

/-- R98. -/
def execLdaIndirectY (d8 : Byte) (s : State) : StepResult := .next (handleLda (eaIndirectY d8 s) (s.advancePc 2))

/-- `X <- v; SetZN(v)`: the shared effect of TAX and INX. -/
def loadX (v : Byte) (s : State) : State := (s.setX v).setP (setZN v s.p)

/-- The handler of TAX (R99). -/
def handleTax (s : State) : State := loadX s.a s

/-- R99. -/
def execTax (s : State) : StepResult := .next (handleTax (s.advancePc 1))

/-- The handler of INX (R100). -/
def handleInx (s : State) : State := loadX (s.x + 1) s

/-- R100. -/
def execInx (s : State) : StepResult := .next (handleInx (s.advancePc 1))

end Sys2Proof.Machine
end

