-- ==== Sys2Proof/Machine/Logic.lean ====
section
/-!
DEFINITION. AND, ASL and BIT (42_logic_shift_bittest.md). As in Load.lean, a meaning is the whole step of its form.
-/

namespace Sys2Proof.Machine

/-- The effect of AND once its byte is read (R110): the masked byte is loaded into `A`. -/
def andA (m : Byte) (s : State) : State := loadA (s.a &&& m) s

/-- `AND(addr)` (R110). -/
def handleAnd (addr : Word) (s : State) : State := andA (s.readByte addr) s

/-- R111. -/
def execAndImmediate (d8 : Byte) (s : State) : StepResult := .next (andA d8 (s.advancePc 2))

/-- R112. -/
def execAndZeroPage (d8 : Byte) (s : State) : StepResult := .next (handleAnd (eaZeroPage d8) (s.advancePc 2))

/-- R113. -/
def execAndZeroPageX (d8 : Byte) (s : State) : StepResult := .next (handleAnd (eaZeroPageX d8 s) (s.advancePc 2))

/-- R114. -/
def execAndAbsolute (d16 : Word) (s : State) : StepResult := .next (handleAnd d16 (s.advancePc 3))

/-- R115. -/
def execAndAbsoluteX (d16 : Word) (s : State) : StepResult := .next (handleAnd (eaAbsoluteX d16 s) (s.advancePc 3))

/-- R116. -/
def execAndAbsoluteY (d16 : Word) (s : State) : StepResult := .next (handleAnd (eaAbsoluteY d16 s) (s.advancePc 3))

/-- R117. -/
def execAndIndirectX (d8 : Byte) (s : State) : StepResult := .next (handleAnd (eaIndirectX d8 s) (s.advancePc 2))

/-- R118. -/
def execAndIndirectY (d8 : Byte) (s : State) : StepResult := .next (handleAnd (eaIndirectY d8 s) (s.advancePc 2))

/-- `ASL_acc()` (R119). -/
def handleAslAccumulator (s : State) : State := (s.setA (shiftLeftOne s.a)).setP (setAsl s.a s.p)

/-- `ASL_mem(addr)` (R119): read, shift, write back to the same cell. -/
def handleAslMemory (addr : Word) (s : State) : State :=
  let v := s.readByte addr
  (s.writeByte addr (shiftLeftOne v)).setP (setAsl v s.p)

/-- R120. -/
def execAslAccumulator (s : State) : StepResult := .next (handleAslAccumulator (s.advancePc 1))

/-- R121. -/
def execAslZeroPage (d8 : Byte) (s : State) : StepResult := .next (handleAslMemory (eaZeroPage d8) (s.advancePc 2))

/-- R122. -/
def execAslZeroPageX (d8 : Byte) (s : State) : StepResult := .next (handleAslMemory (eaZeroPageX d8 s) (s.advancePc 2))

/-- R123. -/
def execAslAbsolute (d16 : Word) (s : State) : StepResult := .next (handleAslMemory d16 (s.advancePc 3))

/-- R124. -/
def execAslAbsoluteX (d16 : Word) (s : State) : StepResult := .next (handleAslMemory (eaAbsoluteX d16 s) (s.advancePc 3))

/-- `BIT(addr)` (R130): only flags are written. -/
def handleBit (addr : Word) (s : State) : State := s.setP (setBit s.a (s.readByte addr) s.p)

/-- R131. -/
def execBitZeroPage (d8 : Byte) (s : State) : StepResult := .next (handleBit (eaZeroPage d8) (s.advancePc 2))

/-- R132 (decision D11, log 11). -/
def execBitAbsolute (d16 : Word) (s : State) : StepResult := .next (handleBit d16 (s.advancePc 3))

end Sys2Proof.Machine
end

