-- ==== Sys2Proof/Machine/Dispatch.lean ====
section
/-!
DEFINITION. One arm per form of 30_encoding.md R57. `exec i s` is the whole step of `i` from a state whose `pc` is the address
of its opcode byte (log 17).
-/

namespace Sys2Proof.Machine

def exec (i : Instr) (s : State) : Host.Outcome State Fault Refusal :=
  match i with
  | .brk => Sys2Proof.Machine.execBrk s
  | .aslZeroPage d8 => Sys2Proof.Machine.execAslZeroPage d8 s
  | .aslAccumulator => Sys2Proof.Machine.execAslAccumulator s
  | .aslAbsolute d16 => Sys2Proof.Machine.execAslAbsolute d16 s
  | .aslZeroPageX d8 => Sys2Proof.Machine.execAslZeroPageX d8 s
  | .aslAbsoluteX d16 => Sys2Proof.Machine.execAslAbsoluteX d16 s
  | .andIndirectX d8 => Sys2Proof.Machine.execAndIndirectX d8 s
  | .bitZeroPage d8 => Sys2Proof.Machine.execBitZeroPage d8 s
  | .andZeroPage d8 => Sys2Proof.Machine.execAndZeroPage d8 s
  | .andImmediate d8 => Sys2Proof.Machine.execAndImmediate d8 s
  | .bitAbsolute d16 => Sys2Proof.Machine.execBitAbsolute d16 s
  | .andAbsolute d16 => Sys2Proof.Machine.execAndAbsolute d16 s
  | .andIndirectY d8 => Sys2Proof.Machine.execAndIndirectY d8 s
  | .andZeroPageX d8 => Sys2Proof.Machine.execAndZeroPageX d8 s
  | .andAbsoluteY d16 => Sys2Proof.Machine.execAndAbsoluteY d16 s
  | .andAbsoluteX d16 => Sys2Proof.Machine.execAndAbsoluteX d16 s
  | .ldaIndirectX d8 => Sys2Proof.Machine.execLdaIndirectX d8 s
  | .ldaZeroPage d8 => Sys2Proof.Machine.execLdaZeroPage d8 s
  | .ldaImmediate d8 => Sys2Proof.Machine.execLdaImmediate d8 s
  | .tax => Sys2Proof.Machine.execTax s
  | .ldaAbsolute d16 => Sys2Proof.Machine.execLdaAbsolute d16 s
  | .bcs d8 => Sys2Proof.Machine.execBcs d8 s
  | .ldaIndirectY d8 => Sys2Proof.Machine.execLdaIndirectY d8 s
  | .ldaZeroPageX d8 => Sys2Proof.Machine.execLdaZeroPageX d8 s
  | .ldaAbsoluteY d16 => Sys2Proof.Machine.execLdaAbsoluteY d16 s
  | .ldaAbsoluteX d16 => Sys2Proof.Machine.execLdaAbsoluteX d16 s
  | .inx => Sys2Proof.Machine.execInx s
  | .beq d8 => Sys2Proof.Machine.execBeq d8 s

end Sys2Proof.Machine
end

