-- ==== Sys2Proof/Machine/Step.lean ====
section
/-!
DEFINITION. One step of the engine (40_dispatch_and_addressing.md R65), and the placing of an instruction for the host.
-/

namespace Sys2Proof.Machine

/-- R65, "taken only while `run_state = Running`": fetch and decode at `pc`; an undefined opcode byte raises
`IllegalOpcode(op, pc)` and changes nothing else (R156); otherwise the instruction runs. In any other `run_state` no step
is taken (R26; log 8). -/
def step (s : State) : Host.Outcome State Fault Refusal :=
  match s.runState with
  | .running =>
    match s.fetch with
    | some i => exec i s
    | none   => .next (s.raise .illegalOpcode (s.readByte s.pc) s.pc)
  | .halted => .fault .engineHalted
  | .faulted cause opcode address => .fault (.engineFaulted cause opcode address)

/-- The instruction's bytes at `pc` and the loop entered (log 16): stands for the host's load and its call of
`interpret()`. -/
def State.withFetchWord (s : State) (nbits w : Nat) : State := s.placeAtPc (tableBytes nbits w)

end Sys2Proof.Machine
end

