-- ==== Sys2Proof/Machine/Engine.lean ====
section
/-!
DEFINITION. The step as 40_dispatch_and_addressing.md R65 writes it, over any opcode table: read the opcode, look up the
entry, let the resolver read the operand bytes from memory, run the entry's handler. It is kept beside `step`, which decodes
the operand first, so that the two can be stated equal; it is also where a bad table meets R152.
-/

namespace Sys2Proof.Machine

/-- The handler of an entry; `addr` is unused by one that takes no address (R65). -/
def runHandler (h : Handler) (addr : Word) (s : State) : State :=
  match h with
  | .lda            => handleLda addr s
  | .tax            => handleTax s
  | .inx            => handleInx s
  | .and            => handleAnd addr s
  | .aslAccumulator => handleAslAccumulator s
  | .aslMemory      => handleAslMemory addr s
  | .bit            => handleBit addr s
  | .bcs            => handleBcs (s.readByte addr) s
  | .beq            => handleBeq (s.readByte addr) s
  | .brk            => handleBrk s

/-- `Step()` of R65 on a running engine. The resolver is called "if the opcode requires an address": where the entry has a
mode, or where its handler asks for an address although the mode is `none` (R152; the fault changes only `run_state`, log
6). -/
def engineStep (table : Byte → Option Entry) (s : State) : State :=
  let a0 := s.pc
  let op := s.readByte a0
  match table op with
  | none => s.raise .illegalOpcode op a0
  | some e =>
    let s1 := s.setPc (a0 + 1)
    if e.handler.usesAddress || e.mode != .none then
      match resolve e.mode s1 with
      | .error cause     => s.raise cause op a0
      | .ok (addr, s2) => runHandler e.handler addr s2
    else runHandler e.handler 0 s1

end Sys2Proof.Machine
end

