-- ==== Sys2Proof/Machine/HostInterface.lean ====
section
/-!
DEFINITION. The host interface (00_scope.md R8; 70_reset_and_hazards.md R172 to R179, R183) and the dispatch loop under a
bound given from outside (40_dispatch_and_addressing.md R78; R184, decision D13; log 13). The host acts only while the engine
is not running, reading a register included (R183, decision D12; log 12).
-/

namespace Sys2Proof.Machine

/-- `reset()` (R172, R173): the four registers zeroed, `pc` from the reset vector; memory and `run_state` unchanged. -/
def State.hostReset (s : State) : State :=
  ((((s.setA 0x00).setX 0x00).setY 0x00).setP 0x00).setPc (s.readWord Config.resetVector)

/-- The two writes of `load_program` on an image that fits: the copy, then the reset vector (R174, decision D19; log 19). -/
def State.loadImage (bytes : List Byte) (s : State) : State :=
  (s.writeBytes Config.loadOrigin bytes).writeWord Config.resetVector Config.loadOrigin

/-- `load_program(bytes)` (R174): an image longer than `LOAD_CAPACITY` is refused and nothing is written (R153, R175; log
7). -/
def State.loadProgram (bytes : List Byte) (s : State) : StepResult :=
  if bytes.length ≤ Config.loadCapacity then .next (s.loadImage bytes) else .refused .loadOverflow

/-- What the host can do between runs. `pokeByte` and `pokeRegisters` are the debug affordance (R179, D12). -/
inductive HostCommand where
  | loadProgram (bytes : List Byte)
  | reset
  | interpret
  | runProgram (bytes : List Byte)
  | pokeByte (addr : Word) (v : Byte)
  | pokeRegisters (a x y p : Byte) (pc : Word)
deriving DecidableEq, Repr

/-- One host command. `interpret` and `runProgram` answer the state at the entry of the loop (R176, R177); the loop itself
is `step` after `step`. While the engine runs the host has no move (R183). -/
def hostCommand (c : HostCommand) (s : State) : StepResult :=
  if s.runState = .running then .refused .engineRunning
  else
    match c with
    | .loadProgram bytes => s.loadProgram bytes
    | .reset => .next s.hostReset
    | .interpret => .next s.enterRun
    | .runProgram bytes =>
      match s.loadProgram bytes with
      | .next t    => .next t.hostReset.enterRun
      | .fault r   => .fault r
      | .refused r => .refused r
    | .pokeByte addr v => .next (s.writeByte addr v)
    | .pokeRegisters a x y p pc => .next (((((s.setA a).setX x).setY y).setP p).setPc pc)

/-- The contents of the register file, which is what the accessors show of the machine (R178): no cell of memory among
them. -/
structure Registers where
  a  : Byte
  x  : Byte
  y  : Byte
  p  : Byte
  pc : Word
deriving DecidableEq, Repr

/-- The register file of a state as one value. A way to speak of states, not an access by the host: that is
`State.readRegisters`. -/
def State.registerFile (s : State) : Registers := ⟨s.a, s.x, s.y, s.p, s.pc⟩

/-- The host's accessors (R178): read-only, so they answer values and no state; refused while the engine runs, as every other
move of the host (R183, decision D12; log 12). -/
def State.readRegisters (s : State) : Except Refusal Registers :=
  if s.runState = .running then .error .engineRunning else .ok s.registerFile

/-- How a run ended, as `interpret()` reports it (R156, R177). -/
inductive RunReport where
  | halted
  | faulted (cause : FaultCause) (opcode : Byte) (address : Word)
deriving DecidableEq, Repr

/-- The report of a run that is over; none while it goes on (R177, R186). -/
def State.report (s : State) : Option RunReport :=
  match s.runState with
  | .running => none
  | .halted => some .halted
  | .faulted cause opcode address => some (.faulted cause opcode address)

/-- The dispatch loop (R78) for at most `n` steps: it stops where `run_state` is no longer `Running`. -/
def runFor : Nat → State → State
  | 0, s => s
  | n + 1, s =>
    match step s with
    | .next t    => runFor n t
    | .fault _   => s
    | .refused _ => s

end Sys2Proof.Machine
end

