-- ==== Sys2Proof/Safety.lean ====
section
/-!
DEFINITION. The terms claims about runs use: reaching a state by steps, the good end of a run (70_reset_and_hazards.md R186),
and the invariants.
-/

namespace Sys2Proof.Machine

/-- `t` is reached from `s` by zero or more steps. -/
inductive Reaches : State → State → Prop where
  | refl (s : State) : Reaches s s
  | tail {s t u : State} (h : Reaches s t) (hstep : step t = .next u) : Reaches s u

/-- R186: `Halted` is the only successful end of a run. -/
def State.endedWell (s : State) : Prop := s.runState = .halted

/-- R186: `Faulted` is an end that no claim treats as success. -/
def State.endedInFault (s : State) : Prop := ∃ cause op addr, s.runState = .faulted cause op addr

/-- The memory is in its canonical form. -/
def State.memoryCanonical (s : State) : Prop := Memory.wf s.mem = true

/-- What holds at every step of a run from `run_program` with no poke (10_state.md R29): `Y` is 0 and so are bits 2 to 5 of
`P`. -/
def State.productionInv (s : State) : Prop := s.y = 0 ∧ ∀ k, 2 ≤ k → k ≤ 5 → s.p.getLsbD k = false

/-- The cells below the load origin all read 0x00, as they do in a run from `run_program` with no poke
(43_branch_halt.md R139). -/
def State.lowMemoryZero (s : State) : Prop := ∀ b : Word, b.toNat < 0x8000 → s.readByte b = 0

end Sys2Proof.Machine
end

