-- ==== Sys2Proof/Certificates/Slice0/Obligations.lean ====
section
/-!
DEFINITION. The statements for the provers. The clauses are written with the model's reads (`readByte`, `getLsbD`) and the
model's own effective-address functions, whose formulas two statements give in the spec's terms.
-/

namespace Sys2Proof.Claims

open Sys2Proof.Machine

/-! ### Shared clauses -/

/-- Every byte of memory reads as before. -/
def SameMemory (s t : State) : Prop := ∀ b : Word, t.readByte b = s.readByte b

/-- Every byte of memory but the one at `addr` reads as before. -/
def SameMemoryBut (addr : Word) (s t : State) : Prop := ∀ b : Word, b ≠ addr → t.readByte b = s.readByte b

/-- `q` is `p` with Zero and Negative recomputed from `v`, every other bit kept. -/
def ZNFrom (v p q : Byte) : Prop :=
  q.getLsbD 1 = decide (v = 0) ∧ q.getLsbD 7 = v.getLsbD 7 ∧ ∀ k, k ≠ 1 → k ≠ 7 → q.getLsbD k = p.getLsbD k

/-- `q` is `p` after ASL of `v`: Carry is bit 7 of `v`, Zero and Negative follow `2 * v mod 256`, every other bit kept. -/
def AslFlags (v p q : Byte) : Prop :=
  q.getLsbD 0 = v.getLsbD 7 ∧ q.getLsbD 1 = decide (2 * v = 0) ∧ q.getLsbD 7 = v.getLsbD 6 ∧
    ∀ k, k ≠ 0 → k ≠ 1 → k ≠ 7 → q.getLsbD k = p.getLsbD k

/-- `i` completes, loads `v` into `A` and changes nothing but `A`, Zero, Negative and `pc`. -/
def LoadsA (i : Instr) (v : Byte) (s : State) : Prop :=
  ∃ t, exec i s = .next t ∧ t.a = v ∧ ZNFrom v s.p t.p ∧ t.x = s.x ∧ t.y = s.y ∧ t.runState = s.runState ∧
    SameMemory s t

/-- `i` completes, shifts the byte at `addr` in place and changes nothing but that cell, Carry, Zero, Negative and `pc`. -/
def ShiftsCell (i : Instr) (addr : Word) (s : State) : Prop :=
  ∃ t, exec i s = .next t ∧ t.readByte addr = 2 * s.readByte addr ∧ AslFlags (s.readByte addr) s.p t.p ∧
    t.a = s.a ∧ t.x = s.x ∧ t.y = s.y ∧ t.runState = s.runState ∧ SameMemoryBut addr s t

/-- `i` completes, tests the byte at `addr` against `A` and changes nothing but Zero, Negative, Overflow and `pc`. -/
def TestsCell (i : Instr) (addr : Word) (s : State) : Prop :=
  ∃ t, exec i s = .next t ∧ t.p.getLsbD 1 = decide (s.a &&& s.readByte addr = 0) ∧
    t.p.getLsbD 7 = (s.readByte addr).getLsbD 7 ∧ t.p.getLsbD 6 = (s.readByte addr).getLsbD 6 ∧
    (∀ k, k ≠ 1 → k ≠ 6 → k ≠ 7 → t.p.getLsbD k = s.p.getLsbD k) ∧
    t.a = s.a ∧ t.x = s.x ∧ t.y = s.y ∧ t.runState = s.runState ∧ SameMemory s t

/-- The instructions that write `A` (10_state.md section 2). -/
def writesA (i : Instr) : Bool :=
  match i.entry.handler with
  | .lda | .and | .aslAccumulator => true
  | .tax | .inx | .aslMemory | .bit | .bcs | .beq | .brk => false

/-- The instructions that read `A`. -/
def readsA (i : Instr) : Bool :=
  match i.entry.handler with
  | .tax | .and | .aslAccumulator | .bit => true
  | .lda | .inx | .aslMemory | .bcs | .beq | .brk => false

/-- The instructions that write `X`. -/
def writesX (i : Instr) : Bool :=
  match i.entry.handler with
  | .tax | .inx => true
  | .lda | .and | .aslAccumulator | .aslMemory | .bit | .bcs | .beq | .brk => false

/-- The instructions that read `X`: INX and the modes indexed by it. -/
def readsX (i : Instr) : Bool :=
  i.entry.handler == .inx || i.entry.mode == .zeroPageX || i.entry.mode == .absoluteX || i.entry.mode == .indirectX

/-- The instructions that read `Y`: the modes indexed by it. -/
def readsY (i : Instr) : Bool :=
  i.entry.mode == .zeroPageY || i.entry.mode == .absoluteY || i.entry.mode == .indirectY

/-- The bits of `P` an instruction writes (10_state.md section 4, the table's "Set and cleared by" column). -/
def writesBit (i : Instr) (k : Nat) : Bool :=
  match i.entry.handler with
  | .lda | .tax | .inx | .and => k == 1 || k == 7
  | .aslAccumulator | .aslMemory => k == 0 || k == 1 || k == 7
  | .bit => k == 1 || k == 6 || k == 7
  | .bcs | .beq | .brk => false

/-- The opcode table maps `op` to this handler and mode. -/
def HasEntry (op : Byte) (h : Handler) (m : Mode) : Prop := opcodeTable op = some ⟨h, m⟩

/-- `op` alone, whatever follows it, decodes to `i` (format `OP`). -/
def DecodesOp (op : Byte) (i : Instr) : Prop := ∀ rest, decode (op :: rest) = .ok (i, rest)

/-- `op` and any operand byte decode to `form` of that byte (format `OP_D8`). -/
def DecodesD8 (op : Byte) (form : Byte → Instr) : Prop :=
  ∀ d8 rest, decode (op :: d8 :: rest) = .ok (form d8, rest)

/-- `op` and any two operand bytes decode to `form` of the word whose high byte is the second (format `OP_D16`). -/
def DecodesD16 (op : Byte) (form : Word → Instr) : Prop :=
  ∀ lo hi rest, decode (op :: lo :: hi :: rest) = .ok (form (hi ++ lo), rest)

/-- Whether `i` is a branch, the only instructions that read a flag. -/
def isBranch (i : Instr) : Bool := i.entry.handler == .bcs || i.entry.handler == .beq

end Sys2Proof.Claims

open Sys2Proof Sys2Proof.Machine Sys2Proof.Claims

/-! ### What the instructions do -/

/-- R90, all eight forms. `eaIndirectX` and `eaIndirectY` are the model's; see `IndexedAndIndirectAddresses`. -/
def Obligations.LdaLoadsTheResolvedByte : Prop :=
  ∀ (s : State) (d8 : Byte) (d16 : Word),
    LoadsA (.ldaImmediate d8) d8 s ∧
    LoadsA (.ldaZeroPage d8) (s.readByte (eaZeroPage d8)) s ∧
    LoadsA (.ldaZeroPageX d8) (s.readByte (eaZeroPageX d8 s)) s ∧
    LoadsA (.ldaAbsolute d16) (s.readByte d16) s ∧
    LoadsA (.ldaAbsoluteX d16) (s.readByte (eaAbsoluteX d16 s)) s ∧
    LoadsA (.ldaAbsoluteY d16) (s.readByte (eaAbsoluteY d16 s)) s ∧
    LoadsA (.ldaIndirectX d8) (s.readByte (eaIndirectX d8 s)) s ∧
    LoadsA (.ldaIndirectY d8) (s.readByte (eaIndirectY d8 s)) s

/-- R91, the whole step: the loaded byte is the one memory holds at the operand's address. `+` on `pc` is modulo 65536 as
`+_16` says (at 0xFFFF that wrap is decision D5, log 5). -/
def Obligations.LdaImmediateStep : Prop :=
  ∀ s : State, s.runState = .running → s.readByte s.pc = 0xA9 →
    ∃ t, step s = .next t ∧ t.a = s.readByte (s.pc + 1) ∧ ZNFrom (s.readByte (s.pc + 1)) s.p t.p ∧ t.x = s.x ∧
      t.y = s.y ∧ t.pc = s.pc + 2 ∧ t.runState = .running ∧ SameMemory s t

/-- R99, the form and the whole step from its opcode byte. -/
def Obligations.TaxCopiesAToX : Prop :=
  ∀ s : State, ∃ t, exec .tax s = .next t ∧ t.x = s.a ∧ ZNFrom s.a s.p t.p ∧ t.a = s.a ∧ t.y = s.y ∧
    t.pc = s.pc + 1 ∧ t.runState = s.runState ∧ SameMemory s t ∧
    (s.runState = .running → s.readByte s.pc = 0xAA → step s = .next t)

/-- R100, the form and the whole step from its opcode byte: 0xFF becomes 0x00 and Carry is not written. -/
def Obligations.InxIncrementsX : Prop :=
  ∀ s : State, ∃ t, exec .inx s = .next t ∧ t.x = s.x + 1 ∧ ZNFrom (s.x + 1) s.p t.p ∧ t.a = s.a ∧ t.y = s.y ∧
    t.pc = s.pc + 1 ∧ t.runState = s.runState ∧ SameMemory s t ∧
    (s.runState = .running → s.readByte s.pc = 0xE8 → step s = .next t)

/-- R110, all eight forms. -/
def Obligations.AndMasksTheAccumulator : Prop :=
  ∀ (s : State) (d8 : Byte) (d16 : Word),
    LoadsA (.andImmediate d8) (s.a &&& d8) s ∧
    LoadsA (.andZeroPage d8) (s.a &&& s.readByte (eaZeroPage d8)) s ∧
    LoadsA (.andZeroPageX d8) (s.a &&& s.readByte (eaZeroPageX d8 s)) s ∧
    LoadsA (.andAbsolute d16) (s.a &&& s.readByte d16) s ∧
    LoadsA (.andAbsoluteX d16) (s.a &&& s.readByte (eaAbsoluteX d16 s)) s ∧
    LoadsA (.andAbsoluteY d16) (s.a &&& s.readByte (eaAbsoluteY d16 s)) s ∧
    LoadsA (.andIndirectX d8) (s.a &&& s.readByte (eaIndirectX d8 s)) s ∧
    LoadsA (.andIndirectY d8) (s.a &&& s.readByte (eaIndirectY d8 s)) s

/-- ASL, accumulator form (42_logic_shift_bittest.md section 2). -/
def Obligations.AslShiftsTheAccumulator : Prop :=
  ∀ s : State, ∃ t, exec .aslAccumulator s = .next t ∧ t.a = 2 * s.a ∧ AslFlags s.a s.p t.p ∧ t.x = s.x ∧ t.y = s.y ∧
    t.runState = s.runState ∧ SameMemory s t

/-- ASL, the four memory forms (42_logic_shift_bittest.md section 2). That the cell is accessed by one read and one write
(decision D15) cannot be observed and is not stated. -/
def Obligations.AslShiftsTheResolvedByte : Prop :=
  ∀ (s : State) (d8 : Byte) (d16 : Word),
    ShiftsCell (.aslZeroPage d8) (eaZeroPage d8) s ∧
    ShiftsCell (.aslZeroPageX d8) (eaZeroPageX d8 s) s ∧
    ShiftsCell (.aslAbsolute d16) d16 s ∧
    ShiftsCell (.aslAbsoluteX d16) (eaAbsoluteX d16 s) s

/-- R130, both forms. -/
def Obligations.BitTestsTheResolvedByte : Prop :=
  ∀ (s : State) (d8 : Byte) (d16 : Word),
    TestsCell (.bitZeroPage d8) (eaZeroPage d8) s ∧ TestsCell (.bitAbsolute d16) d16 s

/-- 43_branch_halt.md section 1: `pc` is the address after the offset byte, plus the offset when the flag is set, and
nothing else changes. That the offset is zero-extended is decision D2 (log 2), the wrap of the sums decision D5 (log 5). -/
def Obligations.BranchesMovePcOnly : Prop :=
  ∀ (s : State) (d8 : Byte),
    exec (.bcs d8) s =
      .next { s with pc := if s.p.getLsbD 0 then s.pc + 2 + d8.setWidth 16 else s.pc + 2 } ∧
    exec (.beq d8) s =
      .next { s with pc := if s.p.getLsbD 1 then s.pc + 2 + d8.setWidth 16 else s.pc + 2 }

/-- R143: the form, the whole step from its opcode byte, and the way on: `interpret()` resumes at the byte after the
halt. -/
def Obligations.BrkHalts : Prop :=
  ∀ s : State,
    exec .brk s = .next { s with pc := s.pc + 1, runState := .halted } ∧
    (s.runState = .running → s.readByte s.pc = 0x00 →
      step s = .next { s with pc := s.pc + 1, runState := .halted }) ∧
    hostCommand .interpret { s with pc := s.pc + 1, runState := .halted } =
      .next { s with pc := s.pc + 1, runState := .running }

/-- 10_state.md section 3: a form that is no branch advances `pc` by its length, modulo 65536 (decision D5, log 5). -/
def Obligations.PcAdvancesByTheLength : Prop :=
  ∀ (i : Instr) (s : State), isBranch i = false →
    ∃ t, exec i s = .next t ∧ t.pc.toNat = (s.pc.toNat + i.length) % 65536

/-- 60_exceptions.md section 1: no handler can fault, and only BRK changes `run_state`. -/
def Obligations.EveryInstructionCompletes : Prop :=
  ∀ (i : Instr) (s : State), ∃ t, exec i s = .next t ∧ t.y = s.y ∧ (i ≠ .brk → t.runState = s.runState)

/-! ### Operands -/

/-- The formulas of 40_dispatch_and_addressing.md section 2 for the effective addresses the statements above name. The
pointer of IndirectX and IndirectY is read as a word at the 16-bit address, so its high byte stands at 0x0100 when the
pointer is at 0x00FF: decision D3 (log 3). -/
def Obligations.IndexedAndIndirectAddresses : Prop :=
  ∀ (s : State) (d8 : Byte) (d16 : Word),
    (eaZeroPage d8).toNat = d8.toNat ∧
    (eaZeroPageX d8 s).toNat = (d8.toNat + s.x.toNat) % 256 ∧
    (eaZeroPageY d8 s).toNat = (d8.toNat + s.y.toNat) % 256 ∧
    (eaAbsoluteX d16 s).toNat = (d16.toNat + s.x.toNat) % 65536 ∧
    (eaAbsoluteY d16 s).toNat = (d16.toNat + s.y.toNat) % 65536 ∧
    (eaIndirectX d8 s).toNat =
      (s.readByte (eaZeroPageX d8 s)).toNat + 256 * (s.readByte (eaZeroPageX d8 s + 1)).toNat ∧
    (eaIndirectY d8 s).toNat =
      ((s.readByte (eaZeroPage d8)).toNat + 256 * (s.readByte (eaZeroPage d8 + 1)).toNat + s.y.toNat) % 65536

/-- R67, R68, R69: the address, the operand bytes consumed, and nothing else changed. -/
def Obligations.ResolverShortModes : Prop :=
  ∀ s : State,
    resolve .immediate s = .ok (s.pc, { s with pc := s.pc + 1 }) ∧
    resolve .zeroPage s = .ok ((s.readByte s.pc).setWidth 16, { s with pc := s.pc + 1 }) ∧
    resolve .zeroPageX s = .ok ((s.readByte s.pc + s.x).setWidth 16, { s with pc := s.pc + 1 })

/-- The other modes of 40_dispatch_and_addressing.md section 2. ZeroPageY is in no row of the table (decision D18); the
operand word at `pc` = 0xFFFF wraps by decision D4 (log 4); `zpPointer` is decision D3 (log 3). -/
def Obligations.ResolverLongModes : Prop :=
  (∀ s : State,
    resolve .zeroPageY s = .ok ((s.readByte s.pc + s.y).setWidth 16, { s with pc := s.pc + 1 }) ∧
    resolve .absolute s = .ok (s.readWord s.pc, { s with pc := s.pc + 2 }) ∧
    resolve .absoluteX s = .ok (s.readWord s.pc + s.x.setWidth 16, { s with pc := s.pc + 2 }) ∧
    resolve .absoluteY s = .ok (s.readWord s.pc + s.y.setWidth 16, { s with pc := s.pc + 2 }) ∧
    resolve .indirectX s = .ok (zpPointer (s.readByte s.pc + s.x) s, { s with pc := s.pc + 1 }) ∧
    resolve .indirectY s = .ok (zpPointer (s.readByte s.pc) s + s.y.setWidth 16, { s with pc := s.pc + 1 })) ∧
  ∀ op e, opcodeTable op = some e → e.mode ≠ .zeroPageY

/-- R76: mode `None` is the fault, and no other mode is one. -/
def Obligations.ResolverFailsOnNoneOnly : Prop :=
  ∀ (m : Mode) (s : State),
    (m = .none → resolve m s = .error .invalidAddressingMode) ∧ (m ≠ .none → ∃ r, resolve m s = .ok r)

/-- 43_branch_halt.md section 1, the table of corner cases: the two settings of `BRANCH_OFFSET_SIGNED` agree on offsets
below 0x80 and differ by exactly 256 from there on; the model's own is the unsigned one (decision D2, log 2). -/
def Obligations.BranchOffsetSettings : Prop :=
  ∀ d8 : Byte,
    (d8.toNat < 0x80 → extOffset true d8 = extOffset false d8) ∧
    (0x80 ≤ d8.toNat → extOffset false d8 = extOffset true d8 + 0x100) ∧
    branchDisplacement d8 = extOffset false d8

/-! ### Flags -/

/-- R18. -/
def Obligations.SetIfWritesItsBitOnly : Prop :=
  ∀ (f : Flag) (c : Bool) (p : Byte),
    f.isSet (f.setIf c p) = c ∧ ∀ k, k ≠ f.bit → (f.setIf c p).getLsbD k = p.getLsbD k

/-- R77. -/
def Obligations.SetZNWritesZeroAndNegative : Prop :=
  ∀ v p : Byte, ZNFrom v p (setZN v p) ∧ ¬((setZN v p).getLsbD 1 = true ∧ (setZN v p).getLsbD 7 = true)

/-! ### Memory -/

/-- R31: the cell holds the value, every other cell and every register is as before. -/
def Obligations.WriteByteThenRead : Prop :=
  ∀ (s : State) (addr : Word) (v : Byte),
    (∀ b : Word, (s.writeByte addr v).readByte b = if b = addr then v else s.readByte b) ∧
    (s.writeByte addr v).a = s.a ∧ (s.writeByte addr v).x = s.x ∧ (s.writeByte addr v).y = s.y ∧
    (s.writeByte addr v).p = s.p ∧ (s.writeByte addr v).pc = s.pc ∧ (s.writeByte addr v).runState = s.runState

/-- 20_memory.md section 1: a word written is the word read, its low byte at the lower address, at every address; at
0xFFFF, which the source leaves out, by decision D4 (log 4). -/
def Obligations.WordRoundTrip : Prop :=
  ∀ (s : State) (addr v : Word),
    (s.writeWord addr v).readWord addr = v ∧
    ((s.writeWord addr v).readByte addr).toNat = v.toNat % 256 ∧
    ((s.writeWord addr v).readByte (addr + 1)).toNat = v.toNat / 256 ∧
    ∀ b, b ≠ addr → b ≠ addr + 1 → (s.writeWord addr v).readByte b = s.readByte b

/-- 20_memory.md section 4: only the memory forms of ASL write memory, and each of the four writes the one cell its mode
resolves to, computed here with the functions the meanings use (their formulas are in `IndexedAndIndirectAddresses`). -/
def Obligations.OnlyAslWritesMemory : Prop :=
  ∀ (i : Instr) (s : State), ∃ t, exec i s = .next t ∧
    (i.entry.handler ≠ .aslMemory → SameMemory s t) ∧
    (∀ d8, i = .aslZeroPage d8 → SameMemoryBut (eaZeroPage d8) s t) ∧
    (∀ d8, i = .aslZeroPageX d8 → SameMemoryBut (eaZeroPageX d8 s) s t) ∧
    (∀ d16, i = .aslAbsolute d16 → SameMemoryBut d16 s t) ∧
    (∀ d16, i = .aslAbsoluteX d16 → SameMemoryBut (eaAbsoluteX d16 s) s t)

/-- 20_memory.md section 6: the next fetch sees what ASL stored, its own operand having been read before (the case of a
store into the instruction itself is covered: the address is the operand it was decoded with). -/
def Obligations.FetchSeesTheStore : Prop :=
  ∀ (s : State) (d16 : Word), ∃ t, exec (.aslAbsolute d16) s = .next t ∧
    t.fetchBytes.head? = some (if s.pc + 3 = d16 then 2 * s.readByte d16 else s.readByte (s.pc + 3))

/-! ### Decoding and encoding -/

/-- Words written out from 30_encoding.md section 3. The bytes other than 0xA9 and 0x00 are decision D1 (log 1). -/
def Obligations.DecodedWords : Prop :=
  decode [0xA9, 0xC0] = .ok (.ldaImmediate 0xC0, []) ∧
  decode [0xAD, 0x0E, 0x80] = .ok (.ldaAbsolute 0x800E, []) ∧
  decode [0x1E, 0xFF, 0x8F] = .ok (.aslAbsoluteX 0x8FFF, []) ∧
  decode [0x24, 0xAA, 0x00] = .ok (.bitZeroPage 0xAA, [0x00]) ∧
  decode [0xF0, 0x02] = .ok (.beq 0x02, []) ∧
  decode [0xEA] = .error (.illegalOpcode 0xEA)

/-- For all instructions, with every operand: the bytes of an instruction decode to it and to what follows them. -/
def Obligations.DecodeAfterEncode : Prop :=
  ∀ (i : Instr) (rest : List Byte), decode (encode i ++ rest) = .ok (i, rest)

/-- The other direction: what decodes to an instruction is that instruction's bytes, so no two byte sequences are one
instruction. -/
def Obligations.EncodeAfterDecode : Prop :=
  ∀ (bytes rest : List Byte) (i : Instr), decode bytes = .ok (i, rest) → bytes = encode i ++ rest

/-- 30_encoding.md sections 3 and 4: the defined opcode bytes are these 28 (24 of them by decision D1, log 1; 0x2C by
decision D11, log 11), the other 228 are undefined, and each defined byte has this mnemonic's handler and this mode. -/
def Obligations.DefinedOpcodes : Prop :=
  (∀ op : Byte, (opcodeTable op).isSome = true ↔
    op.toNat ∈ [0x00, 0x06, 0x0A, 0x0E, 0x16, 0x1E, 0x21, 0x24, 0x25, 0x29, 0x2C, 0x2D, 0x31, 0x35, 0x39, 0x3D,
      0xA1, 0xA5, 0xA9, 0xAA, 0xAD, 0xB0, 0xB1, 0xB5, 0xB9, 0xBD, 0xE8, 0xF0]) ∧
  (HasEntry 0xA9 .lda .immediate ∧ HasEntry 0xA5 .lda .zeroPage ∧ HasEntry 0xB5 .lda .zeroPageX ∧
    HasEntry 0xAD .lda .absolute ∧ HasEntry 0xBD .lda .absoluteX ∧ HasEntry 0xB9 .lda .absoluteY ∧
    HasEntry 0xA1 .lda .indirectX ∧ HasEntry 0xB1 .lda .indirectY) ∧
  (HasEntry 0x29 .and .immediate ∧ HasEntry 0x25 .and .zeroPage ∧ HasEntry 0x35 .and .zeroPageX ∧
    HasEntry 0x2D .and .absolute ∧ HasEntry 0x3D .and .absoluteX ∧ HasEntry 0x39 .and .absoluteY ∧
    HasEntry 0x21 .and .indirectX ∧ HasEntry 0x31 .and .indirectY) ∧
  (HasEntry 0x0A .aslAccumulator .none ∧ HasEntry 0x06 .aslMemory .zeroPage ∧ HasEntry 0x16 .aslMemory .zeroPageX ∧
    HasEntry 0x0E .aslMemory .absolute ∧ HasEntry 0x1E .aslMemory .absoluteX) ∧
  (HasEntry 0x24 .bit .zeroPage ∧ HasEntry 0x2C .bit .absolute) ∧
  (HasEntry 0xAA .tax .none ∧ HasEntry 0xE8 .inx .none ∧ HasEntry 0x00 .brk .none) ∧
  (HasEntry 0xB0 .bcs .immediate ∧ HasEntry 0xF0 .beq .immediate)

/-- 30_encoding.md sections 1 and 3: what each of the 28 opcode bytes decodes to, with every operand: one byte after the
opcode is `d8`; of two, the first is the low byte of `d16` and the second its high byte. The byte values are those of
decision D1 (log 1) but for 0x00, 0xA9, 0xAA and 0xE8; that 0x2C is defined is decision D11 (log 11). -/
def Obligations.EveryOpcodeByteDecodesToItsForm : Prop :=
  (DecodesOp 0x00 .brk ∧ DecodesOp 0x0A .aslAccumulator ∧ DecodesOp 0xAA .tax ∧ DecodesOp 0xE8 .inx) ∧
  (DecodesD8 0xA9 .ldaImmediate ∧ DecodesD8 0xA5 .ldaZeroPage ∧ DecodesD8 0xB5 .ldaZeroPageX ∧
    DecodesD16 0xAD .ldaAbsolute ∧ DecodesD16 0xBD .ldaAbsoluteX ∧ DecodesD16 0xB9 .ldaAbsoluteY ∧
    DecodesD8 0xA1 .ldaIndirectX ∧ DecodesD8 0xB1 .ldaIndirectY) ∧
  (DecodesD8 0x29 .andImmediate ∧ DecodesD8 0x25 .andZeroPage ∧ DecodesD8 0x35 .andZeroPageX ∧
    DecodesD16 0x2D .andAbsolute ∧ DecodesD16 0x3D .andAbsoluteX ∧ DecodesD16 0x39 .andAbsoluteY ∧
    DecodesD8 0x21 .andIndirectX ∧ DecodesD8 0x31 .andIndirectY) ∧
  (DecodesD8 0x06 .aslZeroPage ∧ DecodesD8 0x16 .aslZeroPageX ∧ DecodesD16 0x0E .aslAbsolute ∧
    DecodesD16 0x1E .aslAbsoluteX) ∧
  (DecodesD8 0x24 .bitZeroPage ∧ DecodesD16 0x2C .bitAbsolute) ∧
  (DecodesD8 0xB0 .bcs ∧ DecodesD8 0xF0 .beq)

/-! ### The step -/

/-- A step runs the decoded instruction and adds nothing around it. -/
def Obligations.StepRunsTheDecodedInstruction : Prop :=
  ∀ (s : State) (i : Instr) (rest : List Byte), s.runState = .running →
    decode [s.readByte s.pc, s.readByte (s.pc + 1), s.readByte (s.pc + 2)] = .ok (i, rest) → step s = exec i s

/-- A step runs the instruction whose bytes stand at `pc`. -/
def Obligations.StepRunsTheEncodedInstruction : Prop :=
  ∀ (s : State) (i : Instr), s.runState = .running →
    (∀ k, k < i.length → s.readByte (s.pc + BitVec.ofNat 16 k) = (encode i).getD k 0) → step s = exec i s

/-- The step is the pseudocode of 40_dispatch_and_addressing.md section 1: fetch, table, resolver reading memory,
handler. -/
def Obligations.StepIsThePseudocode : Prop :=
  ∀ s : State, s.runState = .running → step s = .next (engineStep opcodeTable s)

/-- R26 and R65 say steps are taken only while Running; that `step` then answers a stop is the model's choice (log 8). -/
def Obligations.NoStepUnlessRunning : Prop :=
  ∀ s : State,
    (s.runState = .halted → step s = .fault .engineHalted) ∧
    (∀ c op addr, s.runState = .faulted c op addr → step s = .fault (.engineFaulted c op addr)) ∧
    (s.runState = .running → ∃ t, step s = .next t)

/-- 60_exceptions.md section 4: an undefined opcode byte changes `run_state` alone and records the byte and its address;
`pc` stays (90_conflicts.md C3). That the record stands in `run_state` is decision D6 (log 6). -/
def Obligations.IllegalOpcodeChangesRunStateOnly : Prop :=
  ∀ s : State, s.runState = .running → opcodeTable (s.readByte s.pc) = none →
    step s = .next { s with runState := .faulted .illegalOpcode (s.readByte s.pc) s.pc }

/-- 60_exceptions.md sections 1, 3 and 4: a step ends Running, Halted, or in the one run-time fault, which it then recorded
for the byte it fetched, changing nothing else. That the record stands in `run_state` is decision D6 (log 6). -/
def Obligations.IllegalOpcodeIsTheOnlyFault : Prop :=
  ∀ s t : State, step s = .next t →
    t.runState = .running ∨ t.runState = .halted ∨
      (t = { s with runState := .faulted .illegalOpcode (s.readByte s.pc) s.pc } ∧
        opcodeTable (s.readByte s.pc) = none)

/-- 43_branch_halt.md section 2: `Halted` is entered on the opcode 0x00 and on no other. -/
def Obligations.HaltedExactlyOnOpcodeZero : Prop :=
  ∀ s t : State, step s = .next t → (t.runState = .halted ↔ s.readByte s.pc = 0x00)

/-- 40_dispatch_and_addressing.md section 1 and 60_exceptions.md section 1: a table that passes the validity check never
raises InvalidAddressingMode, and a fetched entry that fails the check raises it at once. What that fault records is the
model's choice (log 6). -/
def Obligations.ValidTableNeverAsksForNone : Prop :=
  ∀ (table : Byte → Option Entry) (s : State), s.runState = .running →
    ((∀ op e, table op = some e → e.wf = true) →
      ∀ op addr, (engineStep table s).runState ≠ .faulted .invalidAddressingMode op addr) ∧
    (∀ e, table (s.readByte s.pc) = some e → e.wf = false →
      engineStep table s = { s with runState := .faulted .invalidAddressingMode (s.readByte s.pc) s.pc })

/-! ### Invariants and whole-machine rules -/

/-- Every step keeps the memory's canonical form. -/
def Obligations.StepKeepsMemoryCanonical : Prop :=
  ∀ s t : State, s.memoryCanonical → step s = .next t → t.memoryCanonical

/-- Every step keeps the cells below 0x8000 reading 0x00: ASL alone writes, and ASL of 0x00 writes 0x00 (derived in
43_branch_halt.md section 1, where the end of every such run rests on it). -/
def Obligations.StepKeepsLowMemoryZero : Prop :=
  ∀ s t : State, s.lowMemoryZero → step s = .next t → t.lowMemoryZero

/-- Every host command keeps the memory's canonical form. -/
def Obligations.HostKeepsMemoryCanonical : Prop :=
  ∀ (c : HostCommand) (s t : State), s.memoryCanonical → hostCommand c s = .next t → t.memoryCanonical

/-- 70_reset_and_hazards.md section 1 on a constructed engine. `run_state` (decision D8, log 8) is the spec's choice; the
three invariants hold at reset. -/
def Obligations.ResetState : Prop :=
  State.reset.a = 0 ∧ State.reset.x = 0 ∧ State.reset.y = 0 ∧ State.reset.p = 0 ∧ State.reset.pc = 0 ∧
    (∀ b : Word, State.reset.readByte b = 0) ∧ State.reset.runState = .halted ∧ State.reset.memoryCanonical ∧
    State.reset.productionInv ∧ State.reset.lowMemoryZero

/-- 10_state.md sections 2, 4 and 8: no step writes `Y` or bits 2 to 5 of `P`. -/
def Obligations.StepKeepsYAndUnassignedBits : Prop :=
  ∀ s t : State, step s = .next t → t.y = s.y ∧ ∀ k, 2 ≤ k → k ≤ 5 → t.p.getLsbD k = s.p.getLsbD k

/-- 10_state.md section 8: in a run from `run_program` with no poke, `Y` is 0 and bits 2 to 5 of `P` are zero at every
step. -/
def Obligations.RunProgramKeepsProductionInvariant : Prop :=
  ∀ (bytes : List Byte) (s t u : State), hostCommand (.runProgram bytes) s = .next t → Reaches t u → u.productionInv

/-- 43_branch_halt.md section 1, derived there: with unsigned offsets (decision D2, log 2) and a `pc` that wraps past 0xFFFF
(decision D5, log 5) every run from `run_program` whose low half of memory was never written ends, halted or faulted, within
0x8001 steps. The capacity is decision D7 (log 7), the entry from a fault decision D8 (log 8). -/
def Obligations.RunProgramEnds : Prop :=
  ∀ (bytes : List Byte) (s : State), s.runState ≠ .running → bytes.length ≤ 0x7FFC → s.lowMemoryZero →
    ∃ t n, hostCommand (.runProgram bytes) s = .next t ∧ n ≤ 0x8001 ∧
      ((runFor n t).endedWell ∨ (runFor n t).endedInFault)

/-- 10_state.md section 2: no instruction but LDA, AND and the accumulator form of ASL writes `A`, and none but TAX, AND,
the accumulator form of ASL and BIT reads it: with any other `A` the result is the same. -/
def Obligations.AccumulatorReadersAndWriters : Prop :=
  ∀ (i : Instr) (s : State) (v : Byte), ∃ t t', exec i s = .next t ∧ exec i { s with a := v } = .next t' ∧
    (writesA i = false → t.a = s.a) ∧
    (readsA i = false → t' = if writesA i then t else { t with a := v })

/-- 10_state.md section 2: no instruction but TAX and INX writes `X`, and none but INX and the forms indexed by `X` reads
it. -/
def Obligations.XReadersAndWriters : Prop :=
  ∀ (i : Instr) (s : State) (v : Byte), ∃ t t', exec i s = .next t ∧ exec i { s with x := v } = .next t' ∧
    (writesX i = false → t.x = s.x) ∧
    (readsX i = false → t' = if writesX i then t else { t with x := v })

/-- 10_state.md section 2: no instruction writes `Y`, and none but the forms indexed by `Y` reads it. -/
def Obligations.YReaders : Prop :=
  ∀ (i : Instr) (s : State) (v : Byte), ∃ t t', exec i s = .next t ∧ exec i { s with y := v } = .next t' ∧
    t.y = s.y ∧ (readsY i = false → t' = { t with y := v })

/-- 10_state.md section 4: each bit of `P` is written by its instructions only; no instruction but a branch reads a flag
(with any other `P` everything but the kept bits is the same), BCS reads Carry alone and BEQ Zero alone. -/
def Obligations.FlagReadersAndWriters : Prop :=
  ∀ (i : Instr) (s : State) (q : Byte), ∃ t t', exec i s = .next t ∧ exec i { s with p := q } = .next t' ∧
    (∀ k, writesBit i k = false → t.p.getLsbD k = s.p.getLsbD k) ∧
    (∀ k, t'.p.getLsbD k = if writesBit i k then t.p.getLsbD k else q.getLsbD k) ∧
    ((isBranch i = true → q.getLsbD (if i.entry.handler = .bcs then 0 else 1) =
        s.p.getLsbD (if i.entry.handler = .bcs then 0 else 1)) → t' = { t with p := t'.p })

/-! ### The host interface -/

/-- R172. -/
def Obligations.HostReset : Prop :=
  ∀ s : State, s.hostReset.a = 0 ∧ s.hostReset.x = 0 ∧ s.hostReset.y = 0 ∧ s.hostReset.p = 0 ∧
    s.hostReset.pc.toNat = (s.readByte 0xFFFC).toNat + 256 * (s.readByte 0xFFFD).toNat ∧
    s.hostReset.mem = s.mem ∧ s.hostReset.runState = s.runState

/-- 70_reset_and_hazards.md section 1: twice is once. -/
def Obligations.HostResetTwice : Prop := ∀ s : State, s.hostReset.hostReset = s.hostReset

/-- 70_reset_and_hazards.md section 2: the image at 0x8000, the vector at 0xFFFC, every other cell and every register as
before. The capacity is decision D7 (log 7). -/
def Obligations.LoadProgramWritesImageAndVector : Prop :=
  ∀ (bytes : List Byte) (s : State), s.runState ≠ .running → bytes.length ≤ 0x7FFC →
    ∃ t, hostCommand (.loadProgram bytes) s = .next t ∧
      (∀ b : Word, t.readByte b =
        if b = 0xFFFC then 0x00 else if b = 0xFFFD then 0x80
        else if 0x8000 ≤ b.toNat ∧ b.toNat < 0x8000 + bytes.length then bytes.getD (b.toNat - 0x8000) 0
        else s.readByte b) ∧
      t.registerFile = s.registerFile ∧ t.runState = s.runState

/-- 70_reset_and_hazards.md section 2: a longer image is refused (decision D7, log 7). -/
def Obligations.LoadOverflowIsRefused : Prop :=
  ∀ (bytes : List Byte) (s : State), s.runState ≠ .running → 0x7FFC < bytes.length →
    hostCommand (.loadProgram bytes) s = .refused .loadOverflow ∧
    hostCommand (.runProgram bytes) s = .refused .loadOverflow

/-- 70_reset_and_hazards.md section 2: the start state of a run. The capacity is decision D7 (log 7); that the loop is
entered from a fault as from a halt is decision D8 (log 8). -/
def Obligations.RunProgramLaunchState : Prop :=
  ∀ (bytes : List Byte) (s : State), s.runState ≠ .running → bytes.length ≤ 0x7FFC →
    ∃ t u, hostCommand (.loadProgram bytes) s = .next t ∧ hostCommand (.runProgram bytes) s = .next u ∧
      u.registerFile = ⟨0, 0, 0, 0, 0x8000⟩ ∧ u.mem = t.mem ∧ u.runState = .running

/-- 70_reset_and_hazards.md section 4: during a run the host has no move, reading a register included (decision D12,
log 12). -/
def Obligations.HostHasNoMoveDuringARun : Prop :=
  ∀ (c : HostCommand) (s : State), s.runState = .running →
    hostCommand c s = .refused .engineRunning ∧ s.readRegisters = .error .engineRunning

/-- 70_reset_and_hazards.md sections 2 and 4: outside a run the accessors answer `A`, `X`, `Y`, `P` and `pc` (that the
host may read then is decision D12, log 12). -/
def Obligations.AccessorsReadTheRegisters : Prop :=
  ∀ s : State, s.runState ≠ .running → s.readRegisters = .ok ⟨s.a, s.x, s.y, s.p, s.pc⟩

/-- 60_exceptions.md section 5: `interpret()` straight after a fault faults again with the same record. That `interpret()`
enters the loop from a fault is decision D8 (log 8), that the record stands in `run_state` decision D6 (log 6). -/
def Obligations.InterpretAfterAFaultFaultsAgain : Prop :=
  ∀ s t : State, s.runState = .running → opcodeTable (s.readByte s.pc) = none → step s = .next t →
    ∃ u, hostCommand .interpret t = .next u ∧ step u = .next t

/-- 70_reset_and_hazards.md sections 2 and 5: the report is none exactly while the run goes on, and otherwise says how it
ended, for a fault with the recorded opcode and address (decision D6, log 6). -/
def Obligations.ReportSaysHowTheRunEnded : Prop :=
  ∀ s : State,
    (s.report = none ↔ s.runState = .running) ∧
    (s.report = some .halted ↔ s.endedWell) ∧
    ∀ c op addr, s.report = some (.faulted c op addr) ↔ s.runState = .faulted c op addr
end

