-- ==== Sys2Proof/Laws/Flags.lean ====
section
/-!
SUPPORT. What the flag computations do, bit by bit (10_state.md R18; 40_dispatch_and_addressing.md R77).
-/

namespace Sys2Proof.Machine

theorem Flag.bit_lt (f : Flag) : f.bit < 8 := by cases f <;> decide

/-- A flag's write sets its own bit to the condition and leaves the other seven. -/
theorem Flag.getLsbD_setIf (f : Flag) (c : Bool) (p : Byte) (k : Nat) :
    (f.setIf c p).getLsbD k = if k = f.bit then c else p.getLsbD k := by
  have hlt := f.bit_lt
  cases c
  · by_cases hk : k = f.bit
    · simp [Flag.setIf, hk, hlt]
    · by_cases hk8 : k < 8
      · simp [Flag.setIf, hk, hk8]
      · simp [Flag.setIf, hk, BitVec.getLsbD_of_ge _ k (Nat.le_of_not_lt hk8)]
  · by_cases hk : k = f.bit
    · simp [Flag.setIf, hk, hlt]
    · simp [Flag.setIf, hk, Ne.symm hk]

/-- `SetZN` writes bits 1 and 7 and no other. -/
theorem getLsbD_setZN (v p : Byte) (k : Nat) :
    (setZN v p).getLsbD k = if k = 7 then v.getLsbD 7 else if k = 1 then decide (v = 0) else p.getLsbD k := by
  rw [setZN, Flag.getLsbD_setIf, Flag.getLsbD_setIf]; rfl

/-- ASL writes bits 0, 1 and 7 and no other. -/
theorem getLsbD_setAsl (v p : Byte) (k : Nat) :
    (setAsl v p).getLsbD k =
      if k = 7 then (shiftLeftOne v).getLsbD 7 else if k = 1 then decide (shiftLeftOne v = 0)
      else if k = 0 then v.getLsbD 7 else p.getLsbD k := by
  rw [setAsl, getLsbD_setZN, Flag.getLsbD_setIf]; rfl

/-- BIT writes bits 1, 6 and 7 and no other. -/
theorem getLsbD_setBit (a m p : Byte) (k : Nat) :
    (setBit a m p).getLsbD k =
      if k = 6 then m.getLsbD 6 else if k = 7 then m.getLsbD 7 else if k = 1 then decide (a &&& m = 0)
      else p.getLsbD k := by
  rw [setBit, Flag.getLsbD_setIf, Flag.getLsbD_setIf, Flag.getLsbD_setIf]; rfl

end Sys2Proof.Machine
end

