-- ==== Sys2Proof/Laws/Memory.lean ====
section
/-!
SUPPORT. What a write to the memory array does (20_memory.md R30, R31), and that it keeps the canonical form.
-/

namespace Sys2Proof.Machine

theorem Memory.get_erase (m : Memory) (a b : Nat) :
    Memory.get (Memory.erase m a) b = if b = a then unlistedByte else Memory.get m b := by
  induction m with
  | nil => simp [Memory.erase, Memory.get]
  | cons e m ih =>
    obtain ⟨k, w⟩ := e
    by_cases hka : k = a
    · subst hka
      by_cases hb : b = k
      · subst hb; simpa [Memory.erase] using ih
      · simp [Memory.erase, Memory.get, ih, hb, Ne.symm hb]
    · by_cases hkb : k = b
      · subst hkb; simp [Memory.erase, Memory.get, hka]
      · simp [Memory.erase, Memory.get, hka, hkb, ih]

theorem Memory.get_insert_other (m : Memory) (a b : Nat) (v : Byte) (h : b ≠ a) :
    Memory.get (Memory.insert m a v) b = Memory.get m b := by
  induction m with
  | nil => simp [Memory.insert, Memory.get, Ne.symm h]
  | cons e m ih =>
    obtain ⟨k, w⟩ := e
    by_cases hak : a < k
    · simp [Memory.insert, Memory.get, hak, Ne.symm h]
    · simp [Memory.insert, Memory.get, hak, ih]

/-- Inserting where no entry for the address stands makes it read as the inserted byte. -/
theorem Memory.get_insert_erase_same (m : Memory) (a : Nat) (v : Byte) :
    Memory.get (Memory.insert (Memory.erase m a) a v) a = v := by
  induction m with
  | nil => simp [Memory.erase, Memory.insert, Memory.get]
  | cons e m ih =>
    obtain ⟨k, w⟩ := e
    by_cases hka : k = a
    · simpa [Memory.erase, hka] using ih
    · by_cases hak : a < k
      · simp [Memory.erase, Memory.insert, Memory.get, hka, hak]
      · simp [Memory.erase, Memory.insert, Memory.get, hka, hak, ih]

/-- Read after write: the written cell reads as written, every other cell as before; on any list, canonical or not. -/
theorem Memory.get_put (m : Memory) (a b : Nat) (v : Byte) :
    Memory.get (Memory.put m a v) b = if b = a then v else Memory.get m b := by
  unfold Memory.put
  by_cases hv : v = unlistedByte
  · subst hv; simp [Memory.get_erase]
  · by_cases hb : b = a
    · subst hb; simp [hv, Memory.get_insert_erase_same]
    · simp [hv, hb, Memory.get_insert_other, Memory.get_erase]

theorem Memory.wfFrom_weaken {lo lo' : Nat} {m : Memory} (hle : lo' ≤ lo) (h : Memory.wfFrom lo m = true) :
    Memory.wfFrom lo' m = true := by
  cases m with
  | nil => rfl
  | cons e m =>
    obtain ⟨k, w⟩ := e
    simp only [Memory.wfFrom, Bool.and_eq_true, decide_eq_true_eq] at h ⊢
    exact ⟨⟨⟨by omega, h.1.1.2⟩, h.1.2⟩, h.2⟩

theorem Memory.wfFrom_erase {lo : Nat} {m : Memory} (a : Nat) (h : Memory.wfFrom lo m = true) :
    Memory.wfFrom lo (Memory.erase m a) = true := by
  induction m generalizing lo with
  | nil => rfl
  | cons e m ih =>
    obtain ⟨k, w⟩ := e
    simp only [Memory.wfFrom, Bool.and_eq_true, decide_eq_true_eq] at h
    by_cases hka : k = a
    · simpa [Memory.erase, hka] using Memory.wfFrom_weaken (by omega) (ih h.2)
    · simp only [Memory.erase, if_neg hka, Memory.wfFrom, Bool.and_eq_true, decide_eq_true_eq]
      exact ⟨h.1, ih h.2⟩

theorem Memory.wfFrom_insert_erase {lo : Nat} {m : Memory} {a : Nat} {v : Byte} (h : Memory.wfFrom lo m = true)
    (hlo : lo ≤ a) (ha : a < Config.memSize) (hv : v ≠ unlistedByte) :
    Memory.wfFrom lo (Memory.insert (Memory.erase m a) a v) = true := by
  induction m generalizing lo with
  | nil => simp [Memory.erase, Memory.insert, Memory.wfFrom, hlo, ha, hv]
  | cons e m ih =>
    obtain ⟨k, w⟩ := e
    have hcons := h
    simp only [Memory.wfFrom, Bool.and_eq_true, decide_eq_true_eq] at h
    by_cases hka : k = a
    · simpa [Memory.erase, hka] using ih (Memory.wfFrom_weaken (by omega) h.2) hlo
    · by_cases hak : a < k
      · have hrest : Memory.wfFrom (a + 1) ((k, w) :: Memory.erase m a) = true := by
          simp only [Memory.wfFrom, Bool.and_eq_true, decide_eq_true_eq]
          exact ⟨⟨⟨hak, h.1.1.2⟩, h.1.2⟩, Memory.wfFrom_erase a h.2⟩
        simp only [Memory.erase, if_neg hka, Memory.insert, if_pos hak]
        rw [Memory.wfFrom]
        simp [hlo, ha, hv, hrest]
      · simp only [Memory.erase, if_neg hka, Memory.insert, if_neg hak, Memory.wfFrom, Bool.and_eq_true,
          decide_eq_true_eq]
        exact ⟨h.1, ih h.2 (by omega)⟩

/-- A write inside the address space keeps the canonical form. -/
theorem Memory.wf_put {m : Memory} {a : Nat} (v : Byte) (h : Memory.wf m = true) (ha : a < Config.memSize) :
    Memory.wf (Memory.put m a v) = true := by
  unfold Memory.put
  split
  · exact Memory.wfFrom_erase a h
  · exact Memory.wfFrom_insert_erase h (Nat.zero_le a) ha ‹_›

/-! ### The access operations -/

/-- `read_byte` after `write_byte` (R30, R31). -/
theorem State.readByte_writeByte (s : State) (addr b : Word) (v : Byte) :
    (s.writeByte addr v).readByte b = if b = addr then v else s.readByte b := by
  simp [State.readByte, State.writeByte, Memory.get_put, BitVec.toNat_inj]

/-- `write_byte` keeps the canonical form. -/
theorem State.writeByte_wf (s : State) (addr : Word) (v : Byte) (h : Memory.wf s.mem = true) :
    Memory.wf (s.writeByte addr v).mem = true :=
  Memory.wf_put v h (by simpa [Config.memSize] using addr.isLt)

@[simp] theorem State.writeByte_a (s : State) (addr : Word) (v : Byte) : (s.writeByte addr v).a = s.a := rfl
@[simp] theorem State.writeByte_x (s : State) (addr : Word) (v : Byte) : (s.writeByte addr v).x = s.x := rfl
@[simp] theorem State.writeByte_y (s : State) (addr : Word) (v : Byte) : (s.writeByte addr v).y = s.y := rfl
@[simp] theorem State.writeByte_p (s : State) (addr : Word) (v : Byte) : (s.writeByte addr v).p = s.p := rfl
@[simp] theorem State.writeByte_pc (s : State) (addr : Word) (v : Byte) : (s.writeByte addr v).pc = s.pc := rfl
@[simp] theorem State.writeByte_runState (s : State) (addr : Word) (v : Byte) :
    (s.writeByte addr v).runState = s.runState := rfl

/-- Reading sees memory only. -/
theorem State.readByte_congr {s t : State} (h : s.mem = t.mem) (b : Word) : s.readByte b = t.readByte b := by
  simp [State.readByte, h]

@[simp] theorem State.setA_readByte (s : State) (v : Byte) (b : Word) : (s.setA v).readByte b = s.readByte b := rfl
@[simp] theorem State.setX_readByte (s : State) (v : Byte) (b : Word) : (s.setX v).readByte b = s.readByte b := rfl
@[simp] theorem State.setY_readByte (s : State) (v : Byte) (b : Word) : (s.setY v).readByte b = s.readByte b := rfl
@[simp] theorem State.setP_readByte (s : State) (v : Byte) (b : Word) : (s.setP v).readByte b = s.readByte b := rfl
@[simp] theorem State.setPc_readByte (s : State) (v : Word) (b : Word) : (s.setPc v).readByte b = s.readByte b := rfl
@[simp] theorem State.setRunState_readByte (s : State) (v : RunState) (b : Word) :
    (s.setRunState v).readByte b = s.readByte b := rfl

end Sys2Proof.Machine
end

