-- ==== Sys2Proof/Laws/Ops.lean ====
section
/-!
SUPPORT. The shared operations, once each: what the program counter's advance, fault entry, the handlers and the resolver
leave in every field. Later proofs cite these and do not unfold the operations.
-/

namespace Sys2Proof.Machine

/-! ### Program counter, fault entry, loop entry -/

@[simp] theorem State.advancePc_a (s : State) (n : Word) : (s.advancePc n).a = s.a := rfl
@[simp] theorem State.advancePc_x (s : State) (n : Word) : (s.advancePc n).x = s.x := rfl
@[simp] theorem State.advancePc_y (s : State) (n : Word) : (s.advancePc n).y = s.y := rfl
@[simp] theorem State.advancePc_p (s : State) (n : Word) : (s.advancePc n).p = s.p := rfl
@[simp] theorem State.advancePc_pc (s : State) (n : Word) : (s.advancePc n).pc = s.pc + n := rfl
@[simp] theorem State.advancePc_mem (s : State) (n : Word) : (s.advancePc n).mem = s.mem := rfl
@[simp] theorem State.advancePc_runState (s : State) (n : Word) : (s.advancePc n).runState = s.runState := rfl
@[simp] theorem State.advancePc_readByte (s : State) (n b : Word) : (s.advancePc n).readByte b = s.readByte b := rfl

/-- Fault entry writes `run_state` only (R156). -/
theorem State.raise_eq (s : State) (c : FaultCause) (op : Byte) (addr : Word) :
    s.raise c op addr = { s with runState := .faulted c op addr } := rfl

/-- Loop entry writes `run_state` only (R177). -/
theorem State.enterRun_eq (s : State) : s.enterRun = { s with runState := .running } := rfl

/-! ### Handlers -/

/-- LDA's effect in every field (R90). -/
theorem loadA_eq (v : Byte) (s : State) : loadA v s = { s with a := v, p := setZN v s.p } := rfl

/-- TAX's and INX's effect in every field (R99, R100). -/
theorem loadX_eq (v : Byte) (s : State) : loadX v s = { s with x := v, p := setZN v s.p } := rfl

/-- AND's effect in every field (R110). -/
theorem andA_eq (m : Byte) (s : State) : andA m s = { s with a := s.a &&& m, p := setZN (s.a &&& m) s.p } := rfl

/-- The accumulator form of ASL in every field (R119). -/
theorem handleAslAccumulator_eq (s : State) :
    handleAslAccumulator s = { s with a := shiftLeftOne s.a, p := setAsl s.a s.p } := rfl

/-- The memory forms of ASL in every field (R119). -/
theorem handleAslMemory_eq (addr : Word) (s : State) :
    handleAslMemory addr s =
      { s with mem := Memory.put s.mem addr.toNat (shiftLeftOne (s.readByte addr)),
               p := setAsl (s.readByte addr) s.p } := rfl

/-- What the memory forms of ASL leave in memory: the shifted byte at the address, every other cell as before. -/
theorem handleAslMemory_readByte (addr b : Word) (s : State) :
    (handleAslMemory addr s).readByte b = if b = addr then shiftLeftOne (s.readByte addr) else s.readByte b := by
  simp [handleAslMemory, State.readByte_writeByte]

/-- BIT's effect in every field (R130). -/
theorem handleBit_eq (addr : Word) (s : State) : handleBit addr s = { s with p := setBit s.a (s.readByte addr) s.p } := rfl

/-- A branch writes `pc` only (R135). -/
theorem branchIf_eq (c : Bool) (d : Word) (s : State) :
    branchIf c d s = { s with pc := if c then s.pc + d else s.pc } := by
  cases c <;> rfl

/-- BRK's effect in every field, its `pc` advance apart (R143). -/
theorem handleBrk_eq (s : State) : handleBrk s = { s with runState := .halted } := rfl

/-! ### The resolver -/

/-- The resolver moves `pc` past the operand and changes nothing else (R66). -/
theorem resolve_frame {m : Mode} {s t : State} {addr : Word} (h : resolve m s = .ok (addr, t)) :
    t = s.advancePc (BitVec.ofNat 16 m.operandBytes) := by
  cases m <;> simp [resolve] at h <;> exact h.2 ▸ rfl

/-- The resolver fails exactly under mode `none` (R76). -/
theorem resolve_error_iff {m : Mode} {s : State} {c : FaultCause} :
    resolve m s = .error c ↔ m = .none ∧ c = .invalidAddressingMode := by
  cases m <;> simp [resolve, eq_comm]

end Sys2Proof.Machine
end

