-- ==== Sys2Proof/Laws/PerInstr.lean ====
section
/-!
SUPPORT. The per-instruction family `EncodedForm`: an instruction is well-formed, its opcode byte stands in the opcode map
under its own entry, and it has as many bytes as its length says (30_encoding.md R51, R57).
-/

namespace Sys2Proof.Laws.EncodedForm

/-- Of one instruction: well-formed, in the map, and of its length. -/
def Statement (i : Instr) : Prop :=
  i.wf = true ∧ opcodeTable i.opcode = some i.entry ∧ (encode i).length = i.length

theorem brk : Statement (.brk) := ⟨rfl, rfl, rfl⟩
theorem aslZeroPage (d8 : Byte) : Statement (.aslZeroPage d8) := ⟨rfl, rfl, rfl⟩
theorem aslAccumulator : Statement (.aslAccumulator) := ⟨rfl, rfl, rfl⟩
theorem aslAbsolute (d16 : Word) : Statement (.aslAbsolute d16) := ⟨rfl, rfl, rfl⟩
theorem aslZeroPageX (d8 : Byte) : Statement (.aslZeroPageX d8) := ⟨rfl, rfl, rfl⟩
theorem aslAbsoluteX (d16 : Word) : Statement (.aslAbsoluteX d16) := ⟨rfl, rfl, rfl⟩
theorem andIndirectX (d8 : Byte) : Statement (.andIndirectX d8) := ⟨rfl, rfl, rfl⟩
theorem bitZeroPage (d8 : Byte) : Statement (.bitZeroPage d8) := ⟨rfl, rfl, rfl⟩
theorem andZeroPage (d8 : Byte) : Statement (.andZeroPage d8) := ⟨rfl, rfl, rfl⟩
theorem andImmediate (d8 : Byte) : Statement (.andImmediate d8) := ⟨rfl, rfl, rfl⟩
theorem bitAbsolute (d16 : Word) : Statement (.bitAbsolute d16) := ⟨rfl, rfl, rfl⟩
theorem andAbsolute (d16 : Word) : Statement (.andAbsolute d16) := ⟨rfl, rfl, rfl⟩
theorem andIndirectY (d8 : Byte) : Statement (.andIndirectY d8) := ⟨rfl, rfl, rfl⟩
theorem andZeroPageX (d8 : Byte) : Statement (.andZeroPageX d8) := ⟨rfl, rfl, rfl⟩
theorem andAbsoluteY (d16 : Word) : Statement (.andAbsoluteY d16) := ⟨rfl, rfl, rfl⟩
theorem andAbsoluteX (d16 : Word) : Statement (.andAbsoluteX d16) := ⟨rfl, rfl, rfl⟩
theorem ldaIndirectX (d8 : Byte) : Statement (.ldaIndirectX d8) := ⟨rfl, rfl, rfl⟩
theorem ldaZeroPage (d8 : Byte) : Statement (.ldaZeroPage d8) := ⟨rfl, rfl, rfl⟩
theorem ldaImmediate (d8 : Byte) : Statement (.ldaImmediate d8) := ⟨rfl, rfl, rfl⟩
theorem tax : Statement (.tax) := ⟨rfl, rfl, rfl⟩
theorem ldaAbsolute (d16 : Word) : Statement (.ldaAbsolute d16) := ⟨rfl, rfl, rfl⟩
theorem bcs (d8 : Byte) : Statement (.bcs d8) := ⟨rfl, rfl, rfl⟩
theorem ldaIndirectY (d8 : Byte) : Statement (.ldaIndirectY d8) := ⟨rfl, rfl, rfl⟩
theorem ldaZeroPageX (d8 : Byte) : Statement (.ldaZeroPageX d8) := ⟨rfl, rfl, rfl⟩
theorem ldaAbsoluteY (d16 : Word) : Statement (.ldaAbsoluteY d16) := ⟨rfl, rfl, rfl⟩
theorem ldaAbsoluteX (d16 : Word) : Statement (.ldaAbsoluteX d16) := ⟨rfl, rfl, rfl⟩
theorem inx : Statement (.inx) := ⟨rfl, rfl, rfl⟩
theorem beq (d8 : Byte) : Statement (.beq d8) := ⟨rfl, rfl, rfl⟩

end Sys2Proof.Laws.EncodedForm
end

