-- ==== Sys2Proof/Laws/Step.lean ====
section
/-!
SUPPORT. What a step can do, once, and the induction over a run.
-/

namespace Sys2Proof.Machine

/-- Every row of the opcode map stands for a form of `Instr`, with at most two operand bytes. -/
theorem opcodeRows_instr {row : OpcodeRow} (h : row ∈ opcodeRows) (o1 o2 : Byte) :
    (∃ i, row.entry.instr o1 o2 = some i) ∧ row.entry.mode.operandBytes ≤ 2 := by
  have hall : ∀ row ∈ opcodeRows, (row.entry.instr 0 0).isSome = true ∧ row.entry.mode.operandBytes ≤ 2 := by decide
  have hop : (row.entry.instr o1 o2).isSome = (row.entry.instr 0 0).isSome := by
    obtain ⟨_, hd, md⟩ := row
    cases hd <;> cases md <;> simp [Entry.instr]
  exact ⟨Option.isSome_iff_exists.mp (hop ▸ (hall row h).1), (hall row h).2⟩

/-- The fetch fails exactly on a byte without an entry (R59, R60). -/
theorem State.fetch_eq_none_iff (s : State) : s.fetch = none ↔ opcodeTable (s.readByte s.pc) = none := by
  constructor
  · intro h
    cases he : opcodeTable (s.readByte s.pc) with
    | none => rfl
    | some e =>
      obtain ⟨⟨i, hi⟩, hlen⟩ := opcodeRows_instr (opcodeTable_mem he) (s.readByte (s.pc + 1)) (s.readByte (s.pc + 2))
      have hshort : ¬ [s.readByte (s.pc + 1), s.readByte (s.pc + 2)].length < e.mode.operandBytes :=
        Nat.not_lt.mpr hlen
      simp only [State.fetch, State.fetchBytes, decode, he, if_neg hshort] at h
      simp only [List.getD_cons_zero, List.getD_cons_succ, hi] at h
      cases h
  · intro h
    simp [State.fetch, State.fetchBytes, decode, h]

/-- A step that answers a next state was taken from a running engine and either ran the fetched instruction or recorded an
undefined opcode byte (R65). -/
theorem step_cases {s t : State} (h : step s = .next t) :
    s.runState = .running ∧
      ((∃ i, s.fetch = some i ∧ exec i s = .next t) ∨
        (opcodeTable (s.readByte s.pc) = none ∧ t = s.raise .illegalOpcode (s.readByte s.pc) s.pc)) := by
  unfold step at h
  split at h
  · rename_i hr
    refine ⟨hr, ?_⟩
    split at h
    · rename_i i hi
      exact .inl ⟨i, hi, h⟩
    · rename_i hn
      injection h with h
      exact .inr ⟨s.fetch_eq_none_iff.mp hn, h.symm⟩
  · simp at h
  · simp at h

/-- All an instruction can do to memory: nothing, or the shift of one cell in place (20_memory.md R37). -/
theorem exec_mem {i : Instr} {s t : State} (h : exec i s = .next t) :
    t.mem = s.mem ∨ ∃ addr, t.mem = (s.writeByte addr (shiftLeftOne (s.readByte addr))).mem := by
  cases i <;> injection h with h <;> subst h
  case aslZeroPage | aslZeroPageX | aslAbsolute | aslAbsoluteX => exact .inr ⟨_, rfl⟩
  case bcs => exact .inl (by rw [handleBcs, branchIf_eq]; rfl)
  case beq => exact .inl (by rw [handleBeq, branchIf_eq]; rfl)
  all_goals exact .inl rfl

/-- What holds at the start and is kept by every step holds at every state reached. -/
theorem Reaches.invariant {Inv : State → Prop} (hstep : ∀ s t, Inv s → step s = .next t → Inv t) {s t : State}
    (h : Reaches s t) (hs : Inv s) : Inv t := by
  induction h with
  | refl => exact hs
  | tail _ hlast ih => exact hstep _ _ ih hlast

end Sys2Proof.Machine
end

