-- ==== Sys2Proof/Tests/Slice0.lean ====
section
/-!
SUPPORT. Small tests. The expected values are those of spec/95_test_vectors.md (the vector's id stands in each comment) or
written out from the rule named; none is the model's own answer. Then a witness for the hypotheses of each statement that has
any.
-/

namespace Sys2Proof.Tests

open Sys2Proof.Machine

/-- A running engine with `bytes` at `pc` and `cells` poked before them. -/
def cpu (a x y p : Byte) (pc : Word) (bytes : List Byte) (cells : List (Word × Byte)) : State :=
  ((((((cells.foldl (fun s c => s.writeByte c.1 c.2) State.reset).setA a).setX x).setY y).setP p).setPc pc).placeAtPc bytes

/-- The state after one step, where there is one. -/
def after (s : State) : Option State :=
  match step s with
  | .next t    => some t
  | .fault _   => none
  | .refused _ => none

/-- The registers after one step. -/
def regs (s : State) : Option Registers := (after s).map (·.registerFile)

/-- The registers and one cell after one step. -/
def regsAndCell (b : Word) (s : State) : Option (Registers × Byte) := (after s).map fun t => (t.registerFile, t.readByte b)

/-- The state a host command answers, where there is one. -/
def host (c : HostCommand) (s : State) : Option State :=
  match hostCommand c s with
  | .next t    => some t
  | .fault _   => none
  | .refused _ => none

/-- The instruction a byte list begins with. -/
def read (bytes : List Byte) : Option Instr :=
  match decode bytes with
  | .ok (i, _) => some i
  | .error _   => none

/-! ### Well-formedness: an ill-formed term for each check -/

/-- R79: an address handler under mode None is refused. -/
theorem test_wf_refuses_lda_none : Entry.wf ⟨.lda, .none⟩ = false := by decide

/-- R79: the rows of the table pass. -/
theorem test_wf_table : opcodeRows.all (·.entry.wf) = true := by decide

/-- The canonical form refuses an entry equal to the unlisted byte, a repeated or falling address, an address outside. -/
theorem test_memory_wf_refuses :
    Memory.wf [(5, 0x00)] = false ∧ Memory.wf [(5, 0x01), (5, 0x02)] = false ∧
      Memory.wf [(6, 0x01), (5, 0x02)] = false ∧ Memory.wf [(65536, 0x01)] = false := by decide

/-! ### Decoding: every form, its bytes written out from R52 and R57 (examples of the per-form rules) -/

theorem test_decode_lda :
    [[0xA9, 0xC0], [0xA5, 0xAA], [0xB5, 0xF0], [0xAD, 0x0E, 0x80], [0xBD, 0xF0, 0xFF], [0xB9, 0x34, 0x12], [0xA1, 0x0C],
      [0xB1, 0x10]].map read =
    [some (.ldaImmediate 0xC0), some (.ldaZeroPage 0xAA), some (.ldaZeroPageX 0xF0), some (.ldaAbsolute 0x800E),
      some (.ldaAbsoluteX 0xFFF0), some (.ldaAbsoluteY 0x1234), some (.ldaIndirectX 0x0C),
      some (.ldaIndirectY 0x10)] := by decide

theorem test_decode_and :
    [[0x29, 0x0F], [0x25, 0xAA], [0x35, 0xFF], [0x2D, 0x0E, 0x80], [0x3D, 0x00, 0x90], [0x39, 0x00, 0x90], [0x21, 0x0C],
      [0x31, 0x10]].map read =
    [some (.andImmediate 0x0F), some (.andZeroPage 0xAA), some (.andZeroPageX 0xFF), some (.andAbsolute 0x800E),
      some (.andAbsoluteX 0x9000), some (.andAbsoluteY 0x9000), some (.andIndirectX 0x0C),
      some (.andIndirectY 0x10)] := by decide

theorem test_decode_asl_bit :
    [[0x0A], [0x06, 0xAA], [0x16, 0xA6], [0x0E, 0x0E, 0x80], [0x1E, 0xFF, 0x8F], [0x24, 0xAA], [0x2C, 0x00, 0x90]].map read =
    [some .aslAccumulator, some (.aslZeroPage 0xAA), some (.aslZeroPageX 0xA6), some (.aslAbsolute 0x800E),
      some (.aslAbsoluteX 0x8FFF), some (.bitZeroPage 0xAA), some (.bitAbsolute 0x9000)] := by decide

theorem test_decode_rest :
    [[0xAA], [0xE8], [0xB0, 0x02], [0xF0, 0xFC], [0x00]].map read =
    [some .tax, some .inx, some (.bcs 0x02), some (.beq 0xFC), some .brk] := by decide

/-- Undefined bytes of vectors F1 to F7 are refused by name; a cut instruction is not one. -/
theorem test_decode_refuses :
    [[0x02], [0xEA], [0xFF], [0x4C, 0x00, 0x80], [0xD0, 0x02], [0x85, 0x10], [0xB6, 0x10], [0xAD, 0x0E]].map read =
    [none, none, none, none, none, none, none, none] := by decide

/-- The host's numbering: the second byte is bits 15 to 8. -/
theorem test_decodeTableWord :
    decodeTableWord 24 0x800EAD = some (.ldaAbsolute 0x800E) ∧ decodeTableWord 8 0xA9 = some (.ldaImmediate 0x00) ∧
      decodeTableWord 8 0xEA = none := by decide

/-- The encoder on the example of R61. -/
theorem test_encode : encode (.ldaAbsolute 0x800E) = [0xAD, 0x0E, 0x80] := by decide

/-- The assembler text of R61. -/
theorem test_asm :
    [Instr.ldaImmediate 0xC0, .ldaZeroPageX 0x10, .ldaAbsoluteY 0x1234, .ldaIndirectX 0x0C, .ldaIndirectY 0x10,
      .aslAccumulator, .bcs 0x02, .tax].map Instr.asm =
    ["LDA #$C0", "LDA $10,X", "LDA $1234,Y", "LDA ($0C,X)", "LDA ($10),Y", "ASL A", "BCS +0x02", "TAX"] := by decide

/-! ### LDA -/

/-- L4: only Z and N written. -/
theorem test_lda_immediate : regs (cpu 0x00 0 0 0x7D 0x8000 [0xA9, 0x7F] []) = some ⟨0x7F, 0, 0, 0x7D, 0x8002⟩ := by decide
/-- L22: the opcode at the top of memory. -/
theorem test_lda_immediate_wraps : regs (cpu 0 0 0 0 0xFFFF [0xA9, 0x33] []) = some ⟨0x33, 0, 0, 0, 0x0001⟩ := by decide
/-- L6. -/
theorem test_lda_zeroPage : regs (cpu 0 0 0 0 0x8000 [0xA5, 0xAA] [(0x00AA, 0xC2)]) = some ⟨0xC2, 0, 0, 0x80, 0x8002⟩ := by decide
/-- L7: the index wraps inside the zero page. -/
theorem test_lda_zeroPageX :
    regs (cpu 0 0x20 0 0 0x8000 [0xB5, 0xF0] [(0x0010, 0x7F), (0x0110, 0xEE)]) = some ⟨0x7F, 0x20, 0, 0, 0x8002⟩ := by decide
/-- L9. -/
theorem test_lda_absolute : regs (cpu 0 0 0 0 0x8000 [0xAD, 0x0E, 0x80] [(0x800E, 0x41)]) = some ⟨0x41, 0, 0, 0, 0x8003⟩ := by decide
/-- L21: its own operand byte. -/
theorem test_lda_absolute_own : regs (cpu 0 0 0 0 0x8000 [0xAD, 0x01, 0x80] []) = some ⟨0x01, 0, 0, 0, 0x8003⟩ := by decide
/-- L10: the sum wraps. -/
theorem test_lda_absoluteX : regs (cpu 0x77 0x20 0 0 0x8000 [0xBD, 0xF0, 0xFF] []) = some ⟨0, 0x20, 0, 0x02, 0x8003⟩ := by decide
/-- L13. -/
theorem test_lda_absoluteY :
    regs (cpu 0 0 0x01 0 0x8000 [0xB9, 0xFF, 0xFF] [(0x0000, 0x42)]) = some ⟨0x42, 0, 0x01, 0, 0x8003⟩ := by decide
/-- L15. -/
theorem test_lda_indirectX :
    regs (cpu 0 0x03 0 0 0x8000 [0xA1, 0xFE] [(0x0001, 0x00), (0x0002, 0x90), (0x9000, 0xAB)]) =
      some ⟨0xAB, 0x03, 0, 0x80, 0x8002⟩ := by decide
/-- L16: a pointer at 0x00FF, the default setting. -/
theorem test_lda_indirectX_top :
    regs (cpu 0 0 0 0 0x8000 [0xA1, 0xFF] [(0x0100, 0x90), (0x0000, 0x20), (0x9000, 0x11), (0x2000, 0x22)]) =
      some ⟨0x11, 0, 0, 0, 0x8002⟩ := by decide
/-- L17: the same pointer under the other setting. -/
theorem test_zpPointer_wrap : zpPointerWith true 0xFF (cpu 0 0 0 0 0x8000 [] [(0x0100, 0x90), (0x0000, 0x20)]) = 0x2000 := by decide
/-- L19. -/
theorem test_lda_indirectY :
    regs (cpu 0 0 0x05 0 0x8000 [0xB1, 0x10] [(0x0010, 0x34), (0x0011, 0x12), (0x1239, 0x01)]) =
      some ⟨0x01, 0, 0x05, 0, 0x8002⟩ := by decide
/-- L20: the sum wraps onto the pointer's own low byte. -/
theorem test_lda_indirectY_wraps :
    regs (cpu 0 0 0x20 0 0x8000 [0xB1, 0x10] [(0x0010, 0xF0), (0x0011, 0xFF)]) = some ⟨0xF0, 0, 0x20, 0x80, 0x8002⟩ := by decide

/-! ### TAX, INX -/

/-- T2. -/
theorem test_tax : regs (cpu 0x00 0x11 0 0x81 0x8000 [0xAA] []) = some ⟨0, 0, 0, 0x03, 0x8001⟩ := by decide
/-- T3. -/
theorem test_tax_clears : regs (cpu 0x7F 0xFF 0 0xC3 0x8000 [0xAA] []) = some ⟨0x7F, 0x7F, 0, 0x41, 0x8001⟩ := by decide
/-- I1: no carry from the wrap. -/
theorem test_inx_wraps : regs (cpu 0 0xFF 0 0x80 0x8000 [0xE8] []) = some ⟨0, 0, 0, 0x02, 0x8001⟩ := by decide
/-- I2. -/
theorem test_inx_sign : regs (cpu 0 0x7F 0 0x01 0x8000 [0xE8] []) = some ⟨0, 0x80, 0, 0x81, 0x8001⟩ := by decide

/-! ### AND -/

/-- N2. -/
theorem test_and_immediate : regs (cpu 0xFF 0 0 0x81 0x8000 [0x29, 0x00] []) = some ⟨0, 0, 0, 0x03, 0x8002⟩ := by decide
/-- N4. -/
theorem test_and_immediate_disjoint : regs (cpu 0x55 0 0 0x40 0x8000 [0x29, 0xAA] []) = some ⟨0, 0, 0, 0x42, 0x8002⟩ := by decide
/-- N5. -/
theorem test_and_zeroPage : regs (cpu 0xFF 0 0 0 0x8000 [0x25, 0xAA] [(0x00AA, 0xC2)]) = some ⟨0xC2, 0, 0, 0x80, 0x8002⟩ := by decide
/-- N6. -/
theorem test_and_zeroPageX : regs (cpu 0x0F 0x01 0 0 0x8000 [0x35, 0xFF] [(0x0000, 0x05)]) = some ⟨0x05, 0x01, 0, 0, 0x8002⟩ := by decide
/-- N7. -/
theorem test_and_absolute : regs (cpu 0x41 0 0 0 0x8000 [0x2D, 0x0E, 0x80] [(0x800E, 0x82)]) = some ⟨0, 0, 0, 0x02, 0x8003⟩ := by decide
/-- N8. -/
theorem test_and_absoluteX : regs (cpu 0xFF 0x02 0 0 0x8000 [0x3D, 0x00, 0x90] [(0x9002, 0x80)]) = some ⟨0x80, 0x02, 0, 0x80, 0x8003⟩ := by decide
/-- N10. -/
theorem test_and_absoluteY : regs (cpu 0x3C 0 0x03 0 0x8000 [0x39, 0x00, 0x90] [(0x9003, 0xF0)]) = some ⟨0x30, 0, 0x03, 0, 0x8003⟩ := by decide
/-- N11. -/
theorem test_and_indirectX :
    regs (cpu 0xAA 0x04 0 0 0x8000 [0x21, 0x0C] [(0x0010, 0x34), (0x0011, 0x12), (0x1234, 0x0F)]) =
      some ⟨0x0A, 0x04, 0, 0, 0x8002⟩ := by decide
/-- N12. -/
theorem test_and_indirectY :
    regs (cpu 0xF0 0 0 0 0x8000 [0x31, 0x10] [(0x0010, 0x34), (0x0011, 0x12), (0x1234, 0x90)]) =
      some ⟨0x90, 0, 0, 0x80, 0x8002⟩ := by decide

/-! ### ASL -/

/-- H5: Carry from bit 7, Zero, Overflow kept. -/
theorem test_asl_accumulator : regs (cpu 0x80 0 0 0x43 0x8000 [0x0A] []) = some ⟨0, 0, 0, 0x43, 0x8001⟩ := by decide
/-- H7: the old Carry is not shifted in. -/
theorem test_asl_accumulator_carry : regs (cpu 0xC0 0 0 0x43 0x8000 [0x0A] []) = some ⟨0x80, 0, 0, 0xC1, 0x8001⟩ := by decide
/-- H9. -/
theorem test_asl_zeroPage :
    regsAndCell 0x00AA (cpu 0x55 0 0 0 0x8000 [0x06, 0xAA] [(0x00AA, 0xC2)]) = some (⟨0x55, 0, 0, 0x81, 0x8002⟩, 0x84) := by decide
/-- H12. -/
theorem test_asl_zeroPageX :
    regsAndCell 0x0001 (cpu 0 0x02 0 0 0x8000 [0x16, 0xFF] [(0x0001, 0x21), (0x0101, 0x77)]) =
      some (⟨0, 0x02, 0, 0, 0x8002⟩, 0x42) := by decide
/-- H14: it shifts its own low operand byte after resolving the address. -/
theorem test_asl_absolute_own :
    regsAndCell 0x8001 (cpu 0 0 0 0 0x8000 [0x0E, 0x01, 0x80] []) = some (⟨0, 0, 0, 0, 0x8003⟩, 0x02) := by decide
/-- H15: the reset vector is ordinary memory. -/
theorem test_asl_absolute_vector :
    regsAndCell 0xFFFD (cpu 0 0 0 0 0x8000 [0x0E, 0xFD, 0xFF] [(0xFFFD, 0x80)]) = some (⟨0, 0, 0, 0x03, 0x8003⟩, 0x00) := by decide
/-- H17. -/
theorem test_asl_absoluteX :
    regsAndCell 0x0010 (cpu 0 0x20 0 0 0x8000 [0x1E, 0xF0, 0xFF] [(0x0010, 0xFF)]) =
      some (⟨0, 0x20, 0, 0x81, 0x8003⟩, 0xFE) := by decide

/-! ### BIT -/

/-- B1, source S5. -/
theorem test_bit_zeroPage : regs (cpu 0x03 0 0 0x00 0x8000 [0x24, 0xAA] [(0x00AA, 0xC2)]) = some ⟨0x03, 0, 0, 0xC0, 0x8002⟩ := by decide
/-- B4: Zero with Negative and Overflow; I, D, C kept. -/
theorem test_bit_zeroPage_kept : regs (cpu 0x3F 0 0 0x0D 0x8000 [0x24, 0xAA] [(0x00AA, 0xC0)]) = some ⟨0x3F, 0, 0, 0xCF, 0x8002⟩ := by decide
/-- B7. -/
theorem test_bit_absolute : regs (cpu 0x80 0 0 0x01 0x8000 [0x2C, 0x00, 0x90] [(0x9000, 0x40)]) = some ⟨0x80, 0, 0, 0x43, 0x8003⟩ := by decide

/-! ### Branches -/

/-- C3: every bit but Carry set. -/
theorem test_bcs_not_taken : regs (cpu 0 0 0 0xFE 0x8003 [0xB0, 0x02] []) = some ⟨0, 0, 0, 0xFE, 0x8005⟩ := by decide
/-- C9: forward, the default setting. -/
theorem test_bcs_forward : regs (cpu 0 0 0 0x01 0x8000 [0xB0, 0xFE] []) = some ⟨0, 0, 0, 0x01, 0x8100⟩ := by decide
/-- C8, C10: the same branches under the other setting. -/
theorem test_branch_signed :
    (branchIf true (extOffset true 0x80) (cpu 0 0 0 0x01 0x8002 [] [])).pc = 0x7F82 ∧
      (branchIf true (extOffset true 0xFE) (cpu 0 0 0 0x01 0x8002 [] [])).pc = 0x8000 := by decide
/-- C15: opcode at 0xFFFF, taken. -/
theorem test_beq_taken : regs (cpu 0 0 0 0x03 0x8000 [0xF0, 0x10] []) = some ⟨0, 0, 0, 0x03, 0x8012⟩ := by decide
/-- E3: every bit but Zero set. -/
theorem test_beq_not_taken : regs (cpu 0 0 0 0xFD 0x8009 [0xF0, 0x02] []) = some ⟨0, 0, 0, 0xFD, 0x800B⟩ := by decide

/-! ### BRK, faults, and the end of a run -/

/-- K1. -/
theorem test_brk :
    (after (cpu 0x12 0x34 0x56 0xFF 0x8004 [0x00] [])).map (fun t => (t.registerFile, t.report)) =
      some (⟨0x12, 0x34, 0x56, 0xFF, 0x8005⟩, some .halted) := by decide
/-- F2: the fault changes nothing but `run_state`. -/
theorem test_illegal_opcode :
    after (cpu 0x12 0x34 0x56 0xC3 0x1234 [0xEA] []) =
      some ((cpu 0x12 0x34 0x56 0xC3 0x1234 [0xEA] []).setRunState (.faulted .illegalOpcode 0xEA 0x1234)) := by decide
/-- R26: no step from an idle engine. -/
theorem test_reset_takes_no_step : after State.reset = none := by decide
/-- The host's question on one word: the instruction is the first to run after reset. -/
theorem test_withFetchWord : regs (State.reset.withFetchWord 16 0x33A9) = some ⟨0x33, 0, 0, 0, 0x0002⟩ := by decide

/-! ### The resolver and memory -/

/-- Z1 and Z3. -/
theorem test_resolve_unreached :
    (match resolve .zeroPageY (cpu 0 0 0x02 0 0x8001 [0xFF] []) with
      | .ok (addr, t) => (addr, t.pc)
      | .error _ => (0, 0)) = (0x0001, 0x8002) ∧
    (match resolve .none State.reset with
      | .ok _ => none
      | .error c => some c) = some FaultCause.invalidAddressingMode := by decide
/-- W3, W4: the word at the top of memory. -/
theorem test_word_at_top :
    ((State.reset.writeWord 0xFFFF 0xBEEF).readByte 0xFFFF, (State.reset.writeWord 0xFFFF 0xBEEF).readByte 0x0000,
      (State.reset.writeWord 0xFFFF 0xBEEF).readWord 0xFFFF) = (0xEF, 0xBE, 0xBEEF) := by decide
/-- A write back to the unlisted byte leaves the memory as it was. -/
theorem test_write_is_canonical : (State.reset.writeByte 0x0040 0x7E).writeByte 0x0040 0x00 = State.reset := by decide

/-! ### Host commands -/

/-- Q2: the image and the vector, no register. -/
theorem test_load_program :
    (host (.loadProgram [0xA9, 0xC0]) State.reset).map (fun t => (t.mem, t.registerFile, t.runState)) =
      some ([(0x8000, 0xA9), (0x8001, 0xC0), (0xFFFD, 0x80)], ⟨0, 0, 0, 0, 0⟩, .halted) := by decide
/-- R176: the launch state. -/
theorem test_run_program :
    (host (.runProgram [0x00]) State.reset).map (fun t => (t.registerFile, t.runState)) =
      some (⟨0, 0, 0, 0, 0x8000⟩, .running) := by decide
/-- Q5: the vector's low byte is at 0xFFFC. -/
theorem test_host_reset :
    (((State.reset.writeByte 0xFFFC 0x34).writeByte 0xFFFD 0x12).setP 0xFF).hostReset.registerFile = ⟨0, 0, 0, 0, 0x1234⟩ := by decide
/-- R178, R183: the accessors answer the registers of an idle engine and nothing of a running one. -/
theorem test_accessors :
    (match (cpu 1 2 3 4 5 [] []).readRegisters with
      | .ok _ => none
      | .error r => some r) = some Refusal.engineRunning ∧
    (match ((cpu 1 2 3 4 5 [] []).setRunState .halted).readRegisters with
      | .ok r => some r
      | .error _ => none) = some ⟨1, 2, 3, 4, 5⟩ := by decide
/-- R179: a poked register and cell. -/
theorem test_poke :
    (host (.pokeRegisters 1 2 3 4 5) State.reset).map (·.registerFile) = some ⟨1, 2, 3, 4, 5⟩ ∧
      (host (.pokeByte 0x00AA 0xC2) State.reset).map (·.readByte 0x00AA) = some 0xC2 := by decide

/-! ### Witnesses: the hypotheses of each statement are met together -/

theorem witness_LdaImmediateStep :
    (cpu 0 0 0 0 0x8000 [0xA9, 0x05] []).runState = .running ∧
      (cpu 0 0 0 0 0x8000 [0xA9, 0x05] []).readByte (cpu 0 0 0 0 0x8000 [0xA9, 0x05] []).pc = 0xA9 := by decide

theorem witness_TaxCopiesAToX :
    (cpu 0 0 0 0 0xFFFF [0xAA] []).runState = .running ∧
      (cpu 0 0 0 0 0xFFFF [0xAA] []).readByte (cpu 0 0 0 0 0xFFFF [0xAA] []).pc = 0xAA := by decide

theorem witness_InxIncrementsX :
    (cpu 0 0xFF 0 0 0x8000 [0xE8] []).runState = .running ∧
      (cpu 0 0xFF 0 0 0x8000 [0xE8] []).readByte (cpu 0 0xFF 0 0 0x8000 [0xE8] []).pc = 0xE8 := by decide

theorem witness_BrkHalts :
    (cpu 0 0 0 0 0xFFFF [0x00] []).runState = .running ∧
      (cpu 0 0 0 0 0xFFFF [0x00] []).readByte (cpu 0 0 0 0 0xFFFF [0x00] []).pc = 0x00 := by decide

theorem witness_PcAdvancesByTheLength : Claims.isBranch (.ldaAbsolute 0xFFFF) = false := by decide

theorem witness_EveryInstructionCompletes : Instr.tax ≠ .brk := by decide

theorem witness_ResolverFailsOnNoneOnly : (Mode.none = .none) ∧ (Mode.zeroPageY ≠ .none) := by decide

theorem witness_ResolverLongModes : opcodeTable 0xA9 = some ⟨.lda, .immediate⟩ := by decide

theorem witness_BranchOffsetSettings : (0x7F#8).toNat < 0x80 ∧ 0x80 ≤ (0x80#8).toNat := by decide

/-- Both sides of `OnlyAslWritesMemory`: a form that is no memory form of ASL, and the four that are. -/
theorem witness_OnlyAslWritesMemory :
    (Instr.ldaImmediate 0).entry.handler ≠ .aslMemory ∧
      [Instr.aslZeroPage 0xFF, .aslZeroPageX 0xFF, .aslAbsolute 0xFFFF, .aslAbsoluteX 0xFFFF].all
        (·.entry.handler == .aslMemory) = true := by decide

theorem witness_EncodeAfterDecode :
    (match decode [0xAD, 0x0E, 0x80, 0x00] with
      | .ok (i, rest) => some (i, rest)
      | .error _ => none) = some (.ldaAbsolute 0x800E, [0x00]) := by decide

theorem witness_StepRunsTheDecodedInstruction :
    (cpu 0 0 0 0 0xFFFE [0xAD, 0x0E, 0x80] []).runState = .running ∧
      (cpu 0 0 0 0 0xFFFE [0xAD, 0x0E, 0x80] []).fetchBytes = [0xAD, 0x0E, 0x80] ∧
      read (cpu 0 0 0 0 0xFFFE [0xAD, 0x0E, 0x80] []).fetchBytes = some (.ldaAbsolute 0x800E) := by decide

theorem witness_StepRunsTheEncodedInstruction :
    (cpu 0 0 0 0 0xFFFE [0xAD, 0x0E, 0x80] []).runState = .running ∧
      ∀ k, k < (Instr.ldaAbsolute 0x800E).length →
        (cpu 0 0 0 0 0xFFFE [0xAD, 0x0E, 0x80] []).readByte
          ((cpu 0 0 0 0 0xFFFE [0xAD, 0x0E, 0x80] []).pc + BitVec.ofNat 16 k) =
            (encode (.ldaAbsolute 0x800E)).getD k 0 := by decide

theorem witness_StepIsThePseudocode : (cpu 0 0 0 0 0x8000 [0x24, 0xAA] []).runState = .running := by decide

theorem witness_NoStepUnlessRunning :
    State.reset.runState = .halted ∧
      (State.reset.raise .illegalOpcode 0x02 0x8002).runState = .faulted .illegalOpcode 0x02 0x8002 ∧
      State.reset.enterRun.runState = .running := by decide

/-- For `IllegalOpcodeChangesRunStateOnly`, `IllegalOpcodeIsTheOnlyFault` and `InterpretAfterAFaultFaultsAgain`. -/
theorem witness_illegal_opcode :
    (cpu 1 2 3 4 0xFFFF [0xFF] []).runState = .running ∧
      opcodeTable ((cpu 1 2 3 4 0xFFFF [0xFF] []).readByte (cpu 1 2 3 4 0xFFFF [0xFF] []).pc) = none ∧
      (after (cpu 1 2 3 4 0xFFFF [0xFF] [])).isSome = true := by decide

/-- For `HaltedExactlyOnOpcodeZero`, `StepKeepsMemoryCanonical` and `StepKeepsYAndUnassignedBits`: a step from a canonical
state that answers a next state, on opcode 0x00 and on another. -/
theorem witness_next_state :
    (cpu 1 2 3 4 0x8000 [0x0E, 0x01, 0x80] []).memoryCanonical ∧
      (after (cpu 1 2 3 4 0x8000 [0x0E, 0x01, 0x80] [])).isSome = true ∧
      (after (cpu 1 2 3 4 0x8000 [0x00] [])).isSome = true := by
  refine ⟨?_, ?_, ?_⟩
  · unfold State.memoryCanonical
    decide
  · decide
  · decide

/-- Both clauses of `ValidTableNeverAsksForNone`: the fixed table is valid; a table that answers an invalid entry. -/
theorem witness_ValidTableNeverAsksForNone :
    (∀ op e, opcodeTable op = some e → e.wf = true) ∧
      (fun _ : Byte => some (⟨.lda, .none⟩ : Entry)) 0x00 = some ⟨.lda, .none⟩ ∧ Entry.wf ⟨.lda, .none⟩ = false := by
  refine ⟨fun op e h => ?_, rfl, rfl⟩
  obtain ⟨row, hfind, rfl⟩ := Option.map_eq_some_iff.mp h
  exact List.all_eq_true.mp test_wf_table row (List.mem_of_find?_eq_some hfind)

/-- For the statements about `run_program` and `load_program`. -/
theorem witness_run_program :
    State.reset.runState ≠ .running ∧ [(0x00 : Byte)].length ≤ 0x7FFC ∧
      State.reset.lowMemoryZero ∧
      (host (.runProgram [0x00]) State.reset).isSome = true :=
  ⟨by decide, by decide, fun _ _ => rfl, by decide⟩

theorem witness_RunProgramKeepsProductionInvariant :
    ∃ t u, hostCommand (.runProgram [0x00]) State.reset = .next t ∧ Reaches t u ∧ u.runState = .halted :=
  ⟨_, _, rfl, .tail (.refl _) rfl, rfl⟩

theorem witness_HostKeepsMemoryCanonical :
    State.reset.memoryCanonical ∧ (host (.pokeByte 0xFFFF 0x01) State.reset).isSome = true :=
  ⟨rfl, by decide⟩

theorem witness_LoadOverflowIsRefused :
    State.reset.runState ≠ .running ∧ 0x7FFC < (List.replicate 0x7FFD (0x00 : Byte)).length :=
  ⟨by decide, by rw [List.length_replicate]; decide⟩

/-- For `StepKeepsLowMemoryZero`: a shift of a cell below 0x8000 in a memory that has only its high half written. -/
theorem witness_StepKeepsLowMemoryZero :
    ∃ t, (cpu 0 0 0 0 0x8000 [0x0E, 0x10, 0x00] []).lowMemoryZero ∧
      step (cpu 0 0 0 0 0x8000 [0x0E, 0x10, 0x00] []) = .next t ∧ t.pc = 0x8003 := by
  refine ⟨_, fun b hb => ?_, rfl, rfl⟩
  have hmem : (cpu 0 0 0 0 0x8000 [0x0E, 0x10, 0x00] []).mem = [(0x8000, 0x0E), (0x8001, 0x10)] := by decide
  simp only [State.readByte, hmem, Memory.get]
  rw [if_neg (by omega), if_neg (by omega)]
  rfl

theorem witness_HostHasNoMoveDuringARun : State.reset.enterRun.runState = .running := by decide

/-- `AccumulatorReadersAndWriters`, `XReadersAndWriters`, `YReaders`, `FlagReadersAndWriters`: each condition is met by some
instruction. -/
theorem witness_readers_and_writers :
    Claims.writesA .inx = false ∧ Claims.readsA (.ldaImmediate 0) = false ∧ Claims.writesX (.ldaImmediate 0) = false ∧
      Claims.readsX .tax = false ∧ Claims.readsY (.ldaImmediate 0) = false ∧ Claims.writesBit .tax 0 = false ∧
      Claims.isBranch (.bcs 0) = true := by decide

end Sys2Proof.Tests
end

section
/-!
PROOFS. The status register's flag writes (10_state.md R18), from the bitwise law `Flag.getLsbD_setIf`.
-/

namespace Sys2Proof.Machine

/-- A flag's own bit holds the condition just written. -/
theorem Flag.isSet_setIf_self (f : Flag) (c : Bool) (p : Byte) : f.isSet (f.setIf c p) = c := by
  rw [Flag.isSet, Flag.getLsbD_setIf, if_pos rfl]

/-- The frame of a flag's write. -/
theorem Flag.getLsbD_setIf_of_ne {f : Flag} {k : Nat} (hk : k ≠ f.bit) (c : Bool) (p : Byte) :
    (f.setIf c p).getLsbD k = p.getLsbD k := by
  rw [Flag.getLsbD_setIf, if_neg hk]

/-- Settles O18: the flag's own bit, then the frame. -/
theorem setIfWritesItsBitOnly : Obligations.SetIfWritesItsBitOnly :=
  fun f c p => ⟨f.isSet_setIf_self c p, fun _ hk => Flag.getLsbD_setIf_of_ne hk c p⟩

end Sys2Proof.Machine
end

section
/-!
PROOFS. The memory accesses (20_memory.md), from the read-after-write law `State.readByte_writeByte`.
-/

namespace Sys2Proof.Machine

/-- Settles O20: memory by the read-after-write law, the registers and run_state by the frame of the write. -/
theorem writeByteThenRead : Obligations.WriteByteThenRead :=
  fun s addr v =>
    ⟨fun b => s.readByte_writeByte addr b v,
      s.writeByte_a addr v, s.writeByte_x addr v, s.writeByte_y addr v,
      s.writeByte_p addr v, s.writeByte_pc addr v, s.writeByte_runState addr v⟩

end Sys2Proof.Machine
end

section
/-!
PROOFS. `SetZN` (40_dispatch_and_addressing.md R77), from its bitwise law `getLsbD_setZN`.
-/

namespace Sys2Proof.Machine

/-- What every user of `SetZN` needs of it: its two writes and its frame. -/
theorem znFrom_setZN (v p : Byte) : Claims.ZNFrom v p (setZN v p) := by
  refine ⟨?_, ?_, fun k hk1 hk7 => ?_⟩
  · rw [getLsbD_setZN, if_neg (by decide), if_pos rfl]
  · rw [getLsbD_setZN, if_pos rfl]
  · rw [getLsbD_setZN, if_neg hk7, if_neg hk1]

/-- Flags computed from one byte are never both set: Zero says the byte is 0, whose bit 7 is clear. -/
theorem not_zero_and_negative_of_znFrom {v p q : Byte} (h : Claims.ZNFrom v p q) :
    ¬(q.getLsbD 1 = true ∧ q.getLsbD 7 = true) := by
  obtain ⟨hzero, hnegative, -⟩ := h
  rintro ⟨hz, hn⟩
  have hv : v = 0 := of_decide_eq_true (hzero ▸ hz)
  have hbit : v.getLsbD 7 = true := hnegative ▸ hn
  subst hv
  exact absurd hbit (by decide)

/-- Settles O19: the bitwise account of `SetZN`, and that it excludes both flags at once. -/
theorem setZNWritesZeroAndNegative : Obligations.SetZNWritesZeroAndNegative :=
  fun v p => ⟨znFrom_setZN v p, not_zero_and_negative_of_znFrom (znFrom_setZN v p)⟩

end Sys2Proof.Machine
end

section
/-!
PROOFS. The resolver under Immediate, ZeroPage and ZeroPageX (40_dispatch_and_addressing.md R67 to R69).
-/

namespace Sys2Proof.Machine

/-- The advance writes `pc` only (R15). -/
theorem State.advancePc_eq (s : State) (n : Word) : s.advancePc n = { s with pc := s.pc + n } := rfl

/-- R68 in bits. -/
theorem eaZeroPage_eq_setWidth (d8 : Byte) : eaZeroPage d8 = d8.setWidth 16 := rfl

/-- R69 in bits: the add is on bytes, so it wraps before the extension. -/
theorem eaZeroPageX_eq_setWidth (d8 : Byte) (s : State) : eaZeroPageX d8 s = (d8 + s.x).setWidth 16 := rfl

/-- Settles O14: the resolver's answer under each mode, its address and its `pc` advance in the state's fields. -/
theorem resolverShortModes : Obligations.ResolverShortModes := by
  intro s
  refine ⟨?immediate, ?zeroPage, ?zeroPageX⟩
  case immediate => rw [resolve, State.advancePc_eq]
  case zeroPage => rw [resolve, eaZeroPage_eq_setWidth, State.advancePc_eq]
  case zeroPageX => rw [resolve, eaZeroPageX_eq_setWidth, State.advancePc_eq]

end Sys2Proof.Machine
end

section
/-!
PROOFS. LDA, TAX and INX (41_load_transfer_increment.md). `loadA` and `loadX` after a `pc` advance give the effect and the
frame once for every form; `step_eq_exec_of_opcode` takes a form's effect to the whole step from its opcode byte.
-/

namespace Sys2Proof.Machine

open Sys2Proof.Claims

/-! ### From an opcode byte to its form's meaning -/

/-- A running engine executes what it fetches (R65). -/
theorem step_eq_exec_of_fetch {s : State} {i : Instr} (hrun : s.runState = .running) (hfetch : s.fetch = some i) :
    step s = exec i s := by
  simp only [step, hrun, hfetch]

/-- The byte at `pc` selects the entry, and the entry takes its operand from the two bytes after it (R52, R53); the three
bytes fetched are enough for every entry of the map. -/
theorem State.fetch_of_entry {s : State} {e : Entry} (hentry : opcodeTable (s.readByte s.pc) = some e) :
    s.fetch = e.instr (s.readByte (s.pc + 1)) (s.readByte (s.pc + 2)) := by
  obtain ⟨⟨i, hinstr⟩, hlen⟩ :=
    opcodeRows_instr (opcodeTable_mem hentry) (s.readByte (s.pc + 1)) (s.readByte (s.pc + 2))
  have hlong : ¬[s.readByte (s.pc + 1), s.readByte (s.pc + 2)].length < e.mode.operandBytes := Nat.not_lt.mpr hlen
  have hdecode : decode s.fetchBytes =
      .ok (i, [s.readByte (s.pc + 1), s.readByte (s.pc + 2)].drop e.mode.operandBytes) := by
    simp only [State.fetchBytes, decode, hentry, if_neg hlong, List.getD_cons_zero, List.getD_cons_succ, hinstr]
  simp only [State.fetch, hdecode, hinstr]

/-- The step from the opcode byte of `i` runs `i`, where the two bytes after it hold the operand of `i`. -/
theorem step_eq_exec_of_opcode {s : State} {i : Instr} (hform : Laws.EncodedForm.Statement i)
    (hrun : s.runState = .running) (hop : s.readByte s.pc = i.opcode)
    (hoperand : i.entry.instr (s.readByte (s.pc + 1)) (s.readByte (s.pc + 2)) = some i) : step s = exec i s := by
  obtain ⟨-, hmap, -⟩ := hform
  have hentry : opcodeTable (s.readByte s.pc) = some i.entry := by rw [hop, hmap]
  exact step_eq_exec_of_fetch hrun (by rw [State.fetch_of_entry hentry, hoperand])

/-! ### LDA -/

/-- A load of `A` and the `pc` advance in every field. -/
theorem loadA_advancePc_eq (v : Byte) (n : Word) (s : State) :
    loadA v (s.advancePc n) = { s with a := v, p := setZN v s.p, pc := s.pc + n } := rfl

/-- A form that is a load of `A` after a `pc` advance has the effect and the frame of R90. -/
theorem loadsA_of_exec_eq_loadA {i : Instr} {v : Byte} {n : Word} {s : State}
    (hexec : exec i s = .next (loadA v (s.advancePc n))) : LoadsA i v s := by
  rw [loadA_advancePc_eq] at hexec
  exact ⟨_, hexec, rfl, znFrom_setZN v s.p, rfl, rfl, rfl, State.readByte_congr rfl⟩

/-- A form that is LDA's handler after a `pc` advance loads the byte at its address: the advance keeps memory. -/
theorem loadsA_of_exec_eq_handleLda {i : Instr} {addr n : Word} {s : State}
    (hexec : exec i s = .next (handleLda addr (s.advancePc n))) : LoadsA i (s.readByte addr) s :=
  loadsA_of_exec_eq_loadA (by rw [hexec, handleLda, State.advancePc_readByte])

/-- Settles O1: each form is a load of `A`, Immediate of its operand and the others of the byte at their address. -/
theorem ldaLoadsTheResolvedByte : Obligations.LdaLoadsTheResolvedByte := by
  intro s d8 d16
  refine ⟨?immediate, ?zeroPage, ?zeroPageX, ?absolute, ?absoluteX, ?absoluteY, ?indirectX, ?indirectY⟩
  case immediate => exact loadsA_of_exec_eq_loadA rfl
  case zeroPage | zeroPageX | absolute | absoluteX | absoluteY | indirectX | indirectY =>
    exact loadsA_of_exec_eq_handleLda rfl

/-- Settles O2: the step is LDA Immediate of the byte after the opcode. -/
theorem ldaImmediateStep : Obligations.LdaImmediateStep := by
  intro s hrun hop
  have hstep : step s = .next (loadA (s.readByte (s.pc + 1)) (s.advancePc 2)) :=
    step_eq_exec_of_opcode (Laws.EncodedForm.ldaImmediate (s.readByte (s.pc + 1))) hrun hop rfl
  rw [loadA_advancePc_eq] at hstep
  exact ⟨_, hstep, rfl, znFrom_setZN _ s.p, rfl, rfl, rfl, hrun, State.readByte_congr rfl⟩

/-! ### TAX and INX -/

/-- A load of `X` and the `pc` advance in every field. -/
theorem loadX_advancePc_eq (v : Byte) (n : Word) (s : State) :
    loadX v (s.advancePc n) = { s with x := v, p := setZN v s.p, pc := s.pc + n } := rfl

/-- `i` completes, loads `v` into `X`, moves `pc` by one and changes nothing else but Zero and Negative; and a running
engine at the opcode byte of `i` steps to the same state. -/
def LoadsX (i : Instr) (v : Byte) (s : State) : Prop :=
  ∃ t, exec i s = .next t ∧ t.x = v ∧ ZNFrom v s.p t.p ∧ t.a = s.a ∧ t.y = s.y ∧ t.pc = s.pc + 1 ∧
    t.runState = s.runState ∧ SameMemory s t ∧
    (s.runState = .running → s.readByte s.pc = i.opcode → step s = .next t)

/-- A form without operand that is a load of `X` after a `pc` advance by one has the effect and the frame that R99 and R100
share. -/
theorem loadsX_of_exec_eq_loadX {i : Instr} {v : Byte} {s : State} (hform : Laws.EncodedForm.Statement i)
    (hoperand : ∀ o1 o2, i.entry.instr o1 o2 = some i) (hexec : exec i s = .next (loadX v (s.advancePc 1))) :
    LoadsX i v s := by
  rw [loadX_advancePc_eq] at hexec
  refine ⟨_, hexec, rfl, znFrom_setZN v s.p, rfl, rfl, rfl, rfl, State.readByte_congr rfl, fun hrun hop => ?_⟩
  rw [step_eq_exec_of_opcode hform hrun hop (hoperand _ _), hexec]

/-- Settles O3: TAX is a load of `X` from `A`. -/
theorem taxCopiesAToX : Obligations.TaxCopiesAToX :=
  fun _ => loadsX_of_exec_eq_loadX Laws.EncodedForm.tax (fun _ _ => rfl) rfl

/-- Settles O4: INX is a load of `X` from `X + 1`. -/
theorem inxIncrementsX : Obligations.InxIncrementsX :=
  fun _ => loadsX_of_exec_eq_loadX Laws.EncodedForm.inx (fun _ _ => rfl) rfl

end Sys2Proof.Machine
end

section
/-!
PROOFS. AND and BIT (42_logic_shift_bittest.md). AND is a load of `A`, so its effect and frame are LDA's; BIT's flags come
from the bitwise law `getLsbD_setBit`.
-/

namespace Sys2Proof.Machine

open Sys2Proof.Claims

/-! ### AND -/

/-- A form that masks `A` with `m` after a `pc` advance loads the masked byte: the advance keeps `A`. -/
theorem loadsA_of_exec_eq_andA {i : Instr} {m : Byte} {n : Word} {s : State}
    (hexec : exec i s = .next (andA m (s.advancePc n))) : LoadsA i (s.a &&& m) s :=
  loadsA_of_exec_eq_loadA (by rw [hexec, andA, State.advancePc_a])

/-- A form that is AND's handler after a `pc` advance masks `A` with the byte at its address: the advance keeps memory. -/
theorem loadsA_of_exec_eq_handleAnd {i : Instr} {addr n : Word} {s : State}
    (hexec : exec i s = .next (handleAnd addr (s.advancePc n))) : LoadsA i (s.a &&& s.readByte addr) s :=
  loadsA_of_exec_eq_andA (by rw [hexec, handleAnd, State.advancePc_readByte])

/-- Settles O5: each form masks `A`, Immediate with its operand and the others with the byte at their address. -/
theorem andMasksTheAccumulator : Obligations.AndMasksTheAccumulator := by
  intro s d8 d16
  refine ⟨?immediate, ?zeroPage, ?zeroPageX, ?absolute, ?absoluteX, ?absoluteY, ?indirectX, ?indirectY⟩
  case immediate => exact loadsA_of_exec_eq_andA rfl
  case zeroPage | zeroPageX | absolute | absoluteX | absoluteY | indirectX | indirectY =>
    exact loadsA_of_exec_eq_handleAnd rfl

/-! ### BIT -/

/-- BIT's handler and the `pc` advance in every field. -/
theorem handleBit_advancePc_eq (addr n : Word) (s : State) :
    handleBit addr (s.advancePc n) = { s with p := setBit s.a (s.readByte addr) s.p, pc := s.pc + n } := rfl

/-- A form that is BIT's handler after a `pc` advance has the effect and the frame of R130. -/
theorem testsCell_of_exec_eq_handleBit {i : Instr} {addr n : Word} {s : State}
    (hexec : exec i s = .next (handleBit addr (s.advancePc n))) : TestsCell i addr s := by
  rw [handleBit_advancePc_eq] at hexec
  refine ⟨_, hexec, ?zero, ?negative, ?overflow, fun k hk1 hk6 hk7 => ?otherBits,
    rfl, rfl, rfl, rfl, State.readByte_congr rfl⟩
  case zero => rw [getLsbD_setBit, if_neg (by decide), if_neg (by decide), if_pos rfl]
  case negative => rw [getLsbD_setBit, if_neg (by decide), if_pos rfl]
  case overflow => rw [getLsbD_setBit, if_pos rfl]
  case otherBits => rw [getLsbD_setBit, if_neg hk6, if_neg hk7, if_neg hk1]

/-- Settles O8: both forms are BIT's handler at their address. -/
theorem bitTestsTheResolvedByte : Obligations.BitTestsTheResolvedByte :=
  fun _ _ _ => ⟨testsCell_of_exec_eq_handleBit rfl, testsCell_of_exec_eq_handleBit rfl⟩

end Sys2Proof.Machine
end

section
/-!
PROOFS. BRK (43_branch_halt.md R143): its effect in every field, its step from the opcode byte, and the host's way on.
-/

namespace Sys2Proof.Machine

/-- BRK is its handler after a `pc` advance by one; every other field is kept. -/
theorem exec_brk_eq (s : State) : exec .brk s = .next { s with pc := s.pc + 1, runState := .halted } := by
  have hexec : exec .brk s = .next (handleBrk (s.advancePc 1)) := rfl
  rw [hexec, handleBrk_eq, State.advancePc_eq]

/-- A running engine at BRK's opcode byte runs BRK, which takes no operand. -/
theorem step_eq_exec_brk {s : State} (hrun : s.runState = .running) (hop : s.readByte s.pc = 0x00) :
    step s = exec .brk s :=
  step_eq_exec_of_opcode Laws.EncodedForm.brk hrun hop rfl

/-- Outside a run, `interpret()` enters the loop and changes `run_state` only (R177). -/
theorem hostCommand_interpret {s : State} (hidle : s.runState ≠ .running) :
    hostCommand .interpret s = .next { s with runState := .running } := by
  rw [hostCommand, if_neg hidle, State.enterRun_eq]

/-- Settles O10: the form's effect, the same from its opcode byte, and `interpret()` on the halted state. -/
theorem brkHalts : Obligations.BrkHalts := by
  intro s
  refine ⟨exec_brk_eq s, fun hrun hop => ?fromOpcode, ?resume⟩
  case fromOpcode => rw [step_eq_exec_brk hrun hop, exec_brk_eq]
  case resume =>
    have hidle : RunState.halted ≠ .running := by decide
    rw [hostCommand_interpret hidle]

end Sys2Proof.Machine
end

section
/-!
PROOFS. `reset()` (70_reset_and_hazards.md R172): its effect in every field, and the word the reset vector holds.
-/

namespace Sys2Proof.Machine

/-- `read_word` (R32) as a number: the byte of the next address counts 256 times. -/
theorem State.toNat_readWord (s : State) (addr : Word) :
    (s.readWord addr).toNat = (s.readByte addr).toNat + 256 * (s.readByte (addr + 1)).toNat := by
  rw [State.readWord, joinBytes_toNat, Nat.add_comm, Nat.mul_comm]

/-- `reset()` in every field: memory and `run_state` are those of `s`. -/
theorem State.hostReset_eq (s : State) :
    s.hostReset = { s with a := 0, x := 0, y := 0, p := 0, pc := s.readWord Config.resetVector } := rfl

/-- Settles O46: the fields of `reset()`, with `pc` the word of the reset vector's two cells. -/
theorem hostReset : Obligations.HostReset := by
  intro s
  rw [State.hostReset_eq]
  exact ⟨rfl, rfl, rfl, rfl, s.toNat_readWord Config.resetVector, rfl, rfl⟩

end Sys2Proof.Machine
end

section
/-!
PROOFS. The decoder and the encoder (30_encoding.md). `Entry.instr_eq_some` says once what an entry makes of two operand
bytes; with `decode_eq_ok_iff` and the opcode map's entries being distinct, decoding and encoding are inverse both ways.
-/

namespace Sys2Proof

open Sys2Proof.Claims

/-! ### What every form's encoding has -/

/-- The per-form family `Laws.EncodedForm`, for an instruction not yet named. -/
theorem encodedForm : (i : Instr) → Laws.EncodedForm.Statement i
  | .brk => Laws.EncodedForm.brk
  | .aslZeroPage d8 => Laws.EncodedForm.aslZeroPage d8
  | .aslAccumulator => Laws.EncodedForm.aslAccumulator
  | .aslAbsolute d16 => Laws.EncodedForm.aslAbsolute d16
  | .aslZeroPageX d8 => Laws.EncodedForm.aslZeroPageX d8
  | .aslAbsoluteX d16 => Laws.EncodedForm.aslAbsoluteX d16
  | .andIndirectX d8 => Laws.EncodedForm.andIndirectX d8
  | .bitZeroPage d8 => Laws.EncodedForm.bitZeroPage d8
  | .andZeroPage d8 => Laws.EncodedForm.andZeroPage d8
  | .andImmediate d8 => Laws.EncodedForm.andImmediate d8
  | .bitAbsolute d16 => Laws.EncodedForm.bitAbsolute d16
  | .andAbsolute d16 => Laws.EncodedForm.andAbsolute d16
  | .andIndirectY d8 => Laws.EncodedForm.andIndirectY d8
  | .andZeroPageX d8 => Laws.EncodedForm.andZeroPageX d8
  | .andAbsoluteY d16 => Laws.EncodedForm.andAbsoluteY d16
  | .andAbsoluteX d16 => Laws.EncodedForm.andAbsoluteX d16
  | .ldaIndirectX d8 => Laws.EncodedForm.ldaIndirectX d8
  | .ldaZeroPage d8 => Laws.EncodedForm.ldaZeroPage d8
  | .ldaImmediate d8 => Laws.EncodedForm.ldaImmediate d8
  | .tax => Laws.EncodedForm.tax
  | .ldaAbsolute d16 => Laws.EncodedForm.ldaAbsolute d16
  | .bcs d8 => Laws.EncodedForm.bcs d8
  | .ldaIndirectY d8 => Laws.EncodedForm.ldaIndirectY d8
  | .ldaZeroPageX d8 => Laws.EncodedForm.ldaZeroPageX d8
  | .ldaAbsoluteY d16 => Laws.EncodedForm.ldaAbsoluteY d16
  | .ldaAbsoluteX d16 => Laws.EncodedForm.ldaAbsoluteX d16
  | .inx => Laws.EncodedForm.inx
  | .beq d8 => Laws.EncodedForm.beq d8

theorem opcodeTable_opcode (i : Instr) : opcodeTable i.opcode = some i.entry := (encodedForm i).2.1

theorem length_encode (i : Instr) : (encode i).length = i.length := (encodedForm i).2.2

theorem length_operand (i : Instr) : i.operand.length = i.entry.mode.operandBytes := by
  have hlen := length_encode i
  rw [encode, List.length_cons, Instr.length, Nat.add_comm] at hlen
  exact Nat.add_left_cancel hlen

/-! ### An entry and its operand bytes -/

/-- The entry of a form makes that form of its operand bytes, whatever bytes follow them. -/
theorem Instr.entry_instr_operand (i : Instr) (rest : List Byte) :
    i.entry.instr ((i.operand ++ rest).getD 0 0) ((i.operand ++ rest).getD 1 0) = some i := by
  cases i <;> simp [Instr.entry, Instr.operand, Entry.instr, joinBytes_highByte_lowByte]

/-- The form an entry makes of two bytes has that entry, and for operand those of the two bytes that its mode takes. -/
theorem Entry.instr_eq_some {e : Entry} {o1 o2 : Byte} {i : Instr} (h : e.instr o1 o2 = some i) :
    i.entry = e ∧ i.operand = [o1, o2].take e.mode.operandBytes := by
  unfold Entry.instr at h
  split at h <;> cases h <;>
    simp [Instr.entry, Instr.operand, Mode.operandBytes, lowByte_joinBytes, highByte_joinBytes]

/-- No two rows of the map have one entry, so the entry of a form is found at its own opcode byte alone. -/
theorem opcode_eq_of_entry {op : Byte} {i : Instr} (h : opcodeTable op = some i.entry) : op = i.opcode := by
  have hdistinct : ∀ row ∈ opcodeRows, ∀ row' ∈ opcodeRows, row.entry = row'.entry → row = row' := by decide
  have hrow := hdistinct _ (opcodeTable_mem h) _ (opcodeTable_mem (opcodeTable_opcode i)) rfl
  exact congrArg OpcodeRow.opcode hrow

/-! ### The decoder -/

/-- What the decoder accepts: an opcode byte with an entry, the operand bytes of the entry's mode, and the form the entry
makes of them (R52, R53). -/
theorem decode_cons_eq_ok_iff {op : Byte} {tail rest : List Byte} {i : Instr} :
    decode (op :: tail) = .ok (i, rest) ↔
      ∃ e, opcodeTable op = some e ∧ e.mode.operandBytes ≤ tail.length ∧
        e.instr (tail.getD 0 0) (tail.getD 1 0) = some i ∧ tail.drop e.mode.operandBytes = rest := by
  rw [decode]
  cases opcodeTable op with
  | none => simp
  | some e =>
    simp only [Option.some.injEq, exists_eq_left']
    generalize e.instr (tail.getD 0 0) (tail.getD 1 0) = form
    by_cases hlen : tail.length < e.mode.operandBytes
    · simp [hlen, Nat.not_le.mpr hlen]
    · cases form <;> simp [hlen, Nat.le_of_not_lt hlen]

/-- The bytes of an instruction decode to it and to what follows them. -/
theorem decode_encode_append (i : Instr) (rest : List Byte) : decode (encode i ++ rest) = .ok (i, rest) := by
  refine decode_cons_eq_ok_iff.mpr ⟨i.entry, opcodeTable_opcode i, ?length, i.entry_instr_operand rest, ?rest⟩
  case length => simp [← length_operand]
  case rest => rw [← length_operand]; exact List.drop_left

/-- The two operand bytes the decoder looks at, cut to a length the list has, are the list's beginning. -/
theorem take_getD_pair {tail : List Byte} {n : Nat} (hn : n ≤ 2) (hlen : n ≤ tail.length) :
    [tail.getD 0 0, tail.getD 1 0].take n = tail.take n := by
  match tail, n with
  | _, 0 => rfl
  | o1 :: _, 1 => rfl
  | o1 :: o2 :: _, 2 => rfl

/-- What decodes to an instruction is the instruction's bytes and the rest. -/
theorem eq_encode_append_of_decode {bytes rest : List Byte} {i : Instr} (h : decode bytes = .ok (i, rest)) :
    bytes = encode i ++ rest := by
  cases bytes with
  | nil => cases h
  | cons op tail =>
    obtain ⟨e, hentry, hlen, hinstr, rfl⟩ := decode_cons_eq_ok_iff.mp h
    obtain ⟨rfl, hoperand⟩ := Entry.instr_eq_some hinstr
    have htwo : i.entry.mode.operandBytes ≤ 2 := (Machine.opcodeRows_instr (opcodeTable_mem hentry) 0 0).2
    rw [take_getD_pair htwo hlen] at hoperand
    rw [encode, hoperand, opcode_eq_of_entry hentry, List.cons_append, List.take_append_drop]

/-- Settles O25: the opcode byte finds the entry, and the entry makes the form of the operand bytes. -/
theorem decodeAfterEncode : Obligations.DecodeAfterEncode := decode_encode_append

/-- Settles O26: the entry found determines the opcode byte, the form its operand bytes. -/
theorem encodeAfterDecode : Obligations.EncodeAfterDecode :=
  fun _ _ _ h => eq_encode_append_of_decode h

/-! ### Bytes to forms -/

theorem decodesOp_of_encode {op : Byte} {i : Instr} (h : encode i = [op]) : DecodesOp op i :=
  fun rest => by simpa [h] using decode_encode_append i rest

theorem decodesD8_of_encode {op : Byte} {form : Byte → Instr} (h : ∀ d8, encode (form d8) = [op, d8]) :
    DecodesD8 op form :=
  fun d8 rest => by simpa [h] using decode_encode_append (form d8) rest

theorem decodesD16_of_encode {op : Byte} {form : Word → Instr}
    (h : ∀ d16, encode (form d16) = [op, lowByte d16, highByte d16]) : DecodesD16 op form :=
  fun lo hi rest => by
    have hdecode := decode_encode_append (form (joinBytes hi lo)) rest
    rw [h, lowByte_joinBytes, highByte_joinBytes] at hdecode
    rw [← joinBytes_eq_append]
    exact hdecode

/-- Settles O54: the encoder writes each form with the byte listed for it. -/
theorem everyOpcodeByteDecodesToItsForm : Obligations.EveryOpcodeByteDecodesToItsForm := by
  refine ⟨?implied, ?lda, ?and, ?asl, ?bit, ?branches⟩
  case implied =>
    exact ⟨decodesOp_of_encode rfl, decodesOp_of_encode rfl, decodesOp_of_encode rfl, decodesOp_of_encode rfl⟩
  case lda | and =>
    exact ⟨decodesD8_of_encode fun _ => rfl, decodesD8_of_encode fun _ => rfl, decodesD8_of_encode fun _ => rfl,
      decodesD16_of_encode fun _ => rfl, decodesD16_of_encode fun _ => rfl, decodesD16_of_encode fun _ => rfl,
      decodesD8_of_encode fun _ => rfl, decodesD8_of_encode fun _ => rfl⟩
  case asl =>
    exact ⟨decodesD8_of_encode fun _ => rfl, decodesD8_of_encode fun _ => rfl, decodesD16_of_encode fun _ => rfl,
      decodesD16_of_encode fun _ => rfl⟩
  case bit => exact ⟨decodesD8_of_encode fun _ => rfl, decodesD16_of_encode fun _ => rfl⟩
  case branches => exact ⟨decodesD8_of_encode fun _ => rfl, decodesD8_of_encode fun _ => rfl⟩

/-- Settles O24: five words are encodings; 0xEA has no row. -/
theorem decodedWords : Obligations.DecodedWords := by
  refine ⟨?lda, ?ldaAbsolute, ?asl, ?bit, ?beq, ?undefined⟩
  case lda => exact decode_encode_append (.ldaImmediate 0xC0) []
  case ldaAbsolute => exact decode_encode_append (.ldaAbsolute 0x800E) []
  case asl => exact decode_encode_append (.aslAbsoluteX 0x8FFF) []
  case bit => exact decode_encode_append (.bitZeroPage 0xAA) [0x00]
  case beq => exact decode_encode_append (.beq 0x02) []
  case undefined =>
    have hnone : opcodeTable 0xEA = none := by decide
    rw [decode, hnone]

/-! ### The opcode map -/

/-- A byte has an entry exactly when it is the opcode of a row. -/
theorem isSome_opcodeTable_iff (op : Byte) :
    (opcodeTable op).isSome = true ↔ op.toNat ∈ opcodeRows.map (·.opcode.toNat) := by
  simp [opcodeTable, List.find?_isSome, BitVec.toNat_inj]

theorem hasEntry_opcode (i : Instr) : HasEntry i.opcode i.entry.handler i.entry.mode := opcodeTable_opcode i

/-- Settles O27: the list is the opcode column of the map; each byte is the opcode of a form, whose entry the map has. -/
theorem definedOpcodes : Obligations.DefinedOpcodes := by
  refine ⟨isSome_opcodeTable_iff, ?lda, ?and, ?asl, ?bit, ?implied, ?branches⟩
  case lda =>
    exact ⟨hasEntry_opcode (.ldaImmediate 0), hasEntry_opcode (.ldaZeroPage 0), hasEntry_opcode (.ldaZeroPageX 0),
      hasEntry_opcode (.ldaAbsolute 0), hasEntry_opcode (.ldaAbsoluteX 0), hasEntry_opcode (.ldaAbsoluteY 0),
      hasEntry_opcode (.ldaIndirectX 0), hasEntry_opcode (.ldaIndirectY 0)⟩
  case and =>
    exact ⟨hasEntry_opcode (.andImmediate 0), hasEntry_opcode (.andZeroPage 0), hasEntry_opcode (.andZeroPageX 0),
      hasEntry_opcode (.andAbsolute 0), hasEntry_opcode (.andAbsoluteX 0), hasEntry_opcode (.andAbsoluteY 0),
      hasEntry_opcode (.andIndirectX 0), hasEntry_opcode (.andIndirectY 0)⟩
  case asl =>
    exact ⟨hasEntry_opcode .aslAccumulator, hasEntry_opcode (.aslZeroPage 0), hasEntry_opcode (.aslZeroPageX 0),
      hasEntry_opcode (.aslAbsolute 0), hasEntry_opcode (.aslAbsoluteX 0)⟩
  case bit => exact ⟨hasEntry_opcode (.bitZeroPage 0), hasEntry_opcode (.bitAbsolute 0)⟩
  case implied => exact ⟨hasEntry_opcode .tax, hasEntry_opcode .inx, hasEntry_opcode .brk⟩
  case branches => exact ⟨hasEntry_opcode (.bcs 0), hasEntry_opcode (.beq 0)⟩

end Sys2Proof
end

section
/-!
PROOFS. What a step does to memory (20_memory.md section 4): nothing, or the shift of one cell in place. Both invariants of
memory follow from that.
-/

namespace Sys2Proof.Machine

/-- All a step can do to memory (20_memory.md R37). -/
theorem step_mem {s t : State} (h : step s = .next t) :
    t.mem = s.mem ∨ ∃ addr, t.mem = (s.writeByte addr (shiftLeftOne (s.readByte addr))).mem := by
  obtain ⟨-, ⟨i, -, hexec⟩ | ⟨-, rfl⟩⟩ := step_cases h
  · exact exec_mem hexec
  · exact .inl rfl

/-- A cell after a step is as before, or its shift. -/
theorem step_readByte {s t : State} (h : step s = .next t) (b : Word) :
    t.readByte b = s.readByte b ∨ t.readByte b = shiftLeftOne (s.readByte b) := by
  obtain hmem | ⟨addr, hmem⟩ := step_mem h
  · exact .inl (State.readByte_congr hmem b)
  · rw [State.readByte_congr hmem b, State.readByte_writeByte]
    by_cases hb : b = addr
    · subst hb; exact .inr (if_pos rfl)
    · exact .inl (if_neg hb)

theorem shiftLeftOne_zero : shiftLeftOne 0 = 0 := by decide

theorem step_keeps_memoryCanonical {s t : State} (hs : s.memoryCanonical) (h : step s = .next t) :
    t.memoryCanonical := by
  unfold State.memoryCanonical
  obtain hmem | ⟨addr, hmem⟩ := step_mem h
  · rw [hmem]; exact hs
  · rw [hmem]; exact s.writeByte_wf addr _ hs

theorem step_keeps_lowMemoryZero {s t : State} (hs : s.lowMemoryZero) (h : step s = .next t) : t.lowMemoryZero := by
  intro b hb
  obtain hsame | hshift := step_readByte h b
  · rw [hsame, hs b hb]
  · rw [hshift, hs b hb, shiftLeftOne_zero]

/-- Settles O36: a step writes at most one cell, and a write keeps the canonical form. -/
theorem stepKeepsMemoryCanonical : Obligations.StepKeepsMemoryCanonical :=
  fun _ _ hs h => step_keeps_memoryCanonical hs h

/-- Settles O55: a step writes a cell with its shift only, and the shift of 0x00 is 0x00. -/
theorem stepKeepsLowMemoryZero : Obligations.StepKeepsLowMemoryZero :=
  fun _ _ hs h => step_keeps_lowMemoryZero hs h

end Sys2Proof.Machine
end

section
/-!
PROOFS. One normal form for the 28 meanings: `entryEffect` is the handler's effect on the address and the byte its mode gives,
after the `pc` advance. Every form of `exec` and every valid entry of `engineStep` is one, so what follows is proved once per
handler or once per mode, not once per form.
-/

namespace Sys2Proof.Machine

/-! ### Handlers -/

/-- Where a branch goes from a `pc` past its offset byte (43_branch_halt.md R135). -/
def branchTarget (taken : Bool) (offset : Byte) (pc : Word) : Word :=
  if taken then pc + branchDisplacement offset else pc

/-- A handler's effect on a state whose `pc` is past the instruction, from the address `addr` and the byte `v` there. -/
def handlerEffect (h : Handler) (addr : Word) (v : Byte) (s : State) : State :=
  match h with
  | .lda            => loadA v s
  | .tax            => loadX s.a s
  | .inx            => loadX (s.x + 1) s
  | .and            => andA v s
  | .aslAccumulator => handleAslAccumulator s
  | .aslMemory      => (s.writeByte addr (shiftLeftOne v)).setP (setAsl v s.p)
  | .bit            => s.setP (setBit s.a v s.p)
  | .bcs            => s.setPc (branchTarget (Flag.carry.isSet s.p) v s.pc)
  | .beq            => s.setPc (branchTarget (Flag.zero.isSet s.p) v s.pc)
  | .brk            => handleBrk s

theorem handleBcs_eq (v : Byte) (s : State) (addr : Word) : handleBcs v s = handlerEffect .bcs addr v s :=
  branchIf_eq _ _ s

theorem handleBeq_eq (v : Byte) (s : State) (addr : Word) : handleBeq v s = handlerEffect .beq addr v s :=
  branchIf_eq _ _ s

/-- The model's handler on a resolved address is the effect of the byte that stands there. -/
theorem runHandler_eq (h : Handler) (addr : Word) (s : State) :
    runHandler h addr s = handlerEffect h addr (s.readByte addr) s := by
  cases h
  case bcs => exact handleBcs_eq _ s addr
  case beq => exact handleBeq_eq _ s addr
  all_goals rfl

/-! ### Modes -/

/-- The effective address of a mode, from the operand bytes and the state at the opcode byte (R67 to R76). A form without
address names none; 0 stands there and its handler does not look at it. -/
def modeAddress (o1 o2 : Byte) (s : State) : Mode → Word
  | .immediate => s.pc + 1
  | .zeroPage  => eaZeroPage o1
  | .zeroPageX => eaZeroPageX o1 s
  | .zeroPageY => eaZeroPageY o1 s
  | .absolute  => joinBytes o2 o1
  | .absoluteX => eaAbsoluteX (joinBytes o2 o1) s
  | .absoluteY => eaAbsoluteY (joinBytes o2 o1) s
  | .indirectX => eaIndirectX o1 s
  | .indirectY => eaIndirectY o1 s
  | .none      => 0

/-- The byte a handler works on: the operand under Immediate, else the one at the effective address. -/
def modeByte (o1 o2 : Byte) (s : State) (m : Mode) : Byte :=
  match m with
  | .immediate => o1
  | m          => s.readByte (modeAddress o1 o2 s m)

/-- The resolver, from a `pc` past the opcode byte: the mode's address of the operand bytes in memory, and `pc` past the
whole instruction. -/
theorem resolve_advancePc_one {m : Mode} (hm : m ≠ .none) (s : State) :
    resolve m (s.advancePc 1) =
      .ok (modeAddress (s.readByte (s.pc + 1)) (s.readByte (s.pc + 2)) s m,
        s.advancePc (BitVec.ofNat 16 (1 + m.operandBytes))) := by
  have hpc (n : Word) : (s.advancePc 1).advancePc n = s.advancePc (1 + n) := by
    simp [State.advancePc_eq, BitVec.add_assoc]
  have hword : (s.advancePc 1).readWord (s.pc + 1) =
      joinBytes (s.readByte (s.pc + 2)) (s.readByte (s.pc + 1)) := by
    simp [State.readWord, BitVec.add_assoc]
  cases m
  case none => exact absurd rfl hm
  all_goals simp only [resolve, hpc, hword, State.advancePc_pc, State.advancePc_readByte]; rfl

/-- The byte a mode gives is the one at its address, where the first operand byte stands after the opcode. -/
theorem modeByte_eq_readByte (m : Mode) (o2 : Byte) (s : State) :
    modeByte (s.readByte (s.pc + 1)) o2 s m = s.readByte (modeAddress (s.readByte (s.pc + 1)) o2 s m) := by
  cases m <;> rfl

/-! ### Entries -/

/-- The whole step of an entry on operand bytes, from `pc` at the opcode byte. -/
def entryEffect (o1 o2 : Byte) (e : Entry) (s : State) : State :=
  handlerEffect e.handler (modeAddress o1 o2 s e.mode) (modeByte o1 o2 s e.mode)
    (s.advancePc (BitVec.ofNat 16 (1 + e.mode.operandBytes)))

/-- The meaning of the form an entry makes of two operand bytes. -/
theorem exec_of_entry_instr {e : Entry} {o1 o2 : Byte} {i : Instr} (hform : e.instr o1 o2 = some i) (s : State) :
    exec i s = .next (entryEffect o1 o2 e s) := by
  obtain ⟨h, m⟩ := e
  cases h
  case bcs => cases m <;> cases hform; exact congrArg Host.Outcome.next (handleBcs_eq o1 _ _)
  case beq => cases m <;> cases hform; exact congrArg Host.Outcome.next (handleBeq_eq o1 _ _)
  all_goals cases m <;> cases hform <;> rfl

/-! ### Instructions -/

/-- The effective address of an instruction. -/
def instrAddress (i : Instr) (s : State) : Word :=
  modeAddress (i.operand.getD 0 0) (i.operand.getD 1 0) s i.entry.mode

/-- The byte an instruction works on. -/
def instrByte (i : Instr) (s : State) : Byte :=
  modeByte (i.operand.getD 0 0) (i.operand.getD 1 0) s i.entry.mode

/-- The state an instruction leaves. -/
def instrEffect (i : Instr) (s : State) : State :=
  handlerEffect i.entry.handler (instrAddress i s) (instrByte i s) (s.advancePc (BitVec.ofNat 16 i.length))

/-- Every instruction completes, with its handler's effect (60_exceptions.md section 1). -/
theorem exec_eq (i : Instr) (s : State) : exec i s = .next (instrEffect i s) :=
  exec_of_entry_instr (by simpa using i.entry_instr_operand []) s

theorem exec_eq_next_iff {i : Instr} {s t : State} : exec i s = .next t ↔ instrEffect i s = t := by
  rw [exec_eq, Host.Outcome.next.injEq]

end Sys2Proof.Machine
end

section
/-!
PROOFS. What an instruction writes and reads of the state (10_state.md sections 2 to 4, 20_memory.md section 4), field by
field, from the normal form `instrEffect`.
-/

namespace Sys2Proof.Machine

open Sys2Proof.Claims

/-! ### `Y`, `run_state`, `pc` and memory -/

theorem instrEffect_y (i : Instr) (s : State) : (instrEffect i s).y = s.y := by
  unfold instrEffect
  cases i.entry.handler <;> rfl

theorem entry_handler_eq_brk_iff {i : Instr} : i.entry.handler = .brk ↔ i = .brk := by
  cases i <;> simp [Instr.entry]

/-- BRK halts; every other instruction keeps `run_state`. -/
theorem instrEffect_runState (i : Instr) (s : State) :
    (instrEffect i s).runState = if i = .brk then .halted else s.runState := by
  simp only [← entry_handler_eq_brk_iff]
  unfold instrEffect
  cases i.entry.handler <;> rfl

theorem add_zext16_zero (w : Word) : w + zext16 0 = w := by simp [zext16]

/-- A branch adds its offset byte zero-extended (decision D2), and nothing where it is not taken. -/
theorem branchTarget_eq (taken : Bool) (offset : Byte) (pc : Word) :
    branchTarget taken offset pc = pc + zext16 (if taken then offset else 0) := by
  cases taken
  · exact (add_zext16_zero pc).symm
  · rfl

/-- An instruction moves `pc` past itself and, where it is a taken branch, on by its offset byte (43_branch_halt.md
R135). -/
theorem instrEffect_pc (i : Instr) (s : State) :
    ∃ d : Byte, (isBranch i = false → d = 0) ∧ (instrEffect i s).pc = s.pc + BitVec.ofNat 16 i.length + zext16 d := by
  unfold instrEffect isBranch
  cases i.entry.handler
  case bcs => exact ⟨_, fun hbranch => absurd hbranch (by decide), branchTarget_eq _ _ _⟩
  case beq => exact ⟨_, fun hbranch => absurd hbranch (by decide), branchTarget_eq _ _ _⟩
  all_goals exact ⟨0, fun _ => rfl, (add_zext16_zero _).symm⟩

theorem instrEffect_pc_toNat {i : Instr} (hbranch : isBranch i = false) (s : State) :
    (instrEffect i s).pc.toNat = (s.pc.toNat + i.length) % 65536 := by
  obtain ⟨d, hd, hpc⟩ := instrEffect_pc i s
  rw [hpc, hd hbranch]
  simp [zext16, BitVec.toNat_add]

/-- An instruction that is no memory form of ASL leaves memory as it is. -/
theorem instrEffect_mem {i : Instr} (hasl : i.entry.handler ≠ .aslMemory) (s : State) :
    (instrEffect i s).mem = s.mem := by
  unfold instrEffect
  revert hasl
  cases i.entry.handler
  case aslMemory => exact fun hasl => absurd rfl hasl
  all_goals exact fun _ => rfl

/-- No instruction writes a cell but the one at its effective address. -/
theorem instrEffect_sameMemoryBut (i : Instr) (s : State) : SameMemoryBut (instrAddress i s) s (instrEffect i s) := by
  intro b hb
  by_cases hasl : i.entry.handler = .aslMemory
  · rw [instrEffect, hasl, handlerEffect, State.setP_readByte, State.readByte_writeByte, if_neg hb,
      State.advancePc_readByte]
  · exact State.readByte_congr (instrEffect_mem hasl s) b

theorem instrAddress_aslAbsolute (d16 : Word) (s : State) : instrAddress (.aslAbsolute d16) s = d16 :=
  joinBytes_highByte_lowByte d16

theorem instrAddress_aslAbsoluteX (d16 : Word) (s : State) :
    instrAddress (.aslAbsoluteX d16) s = eaAbsoluteX d16 s :=
  congrArg (fun w => eaAbsoluteX w s) (joinBytes_highByte_lowByte d16)

/-- Settles O12: `Y` and `run_state` of the normal form. -/
theorem everyInstructionCompletes : Obligations.EveryInstructionCompletes :=
  fun i s => ⟨_, exec_eq i s, instrEffect_y i s, fun hbrk => by rw [instrEffect_runState, if_neg hbrk]⟩

/-- Settles O11: `pc` of the normal form. -/
theorem pcAdvancesByTheLength : Obligations.PcAdvancesByTheLength :=
  fun i s hbranch => ⟨_, exec_eq i s, instrEffect_pc_toNat hbranch s⟩

/-- Settles O22: memory of the normal form, at the effective address of each memory form of ASL. -/
theorem onlyAslWritesMemory : Obligations.OnlyAslWritesMemory := by
  intro i s
  refine ⟨_, exec_eq i s, fun hasl => State.readByte_congr (instrEffect_mem hasl s), ?zeroPage, ?zeroPageX, ?absolute,
    ?absoluteX⟩
  case zeroPage =>
    rintro d8 rfl
    exact instrEffect_sameMemoryBut (.aslZeroPage d8) s
  case zeroPageX =>
    rintro d8 rfl
    exact instrEffect_sameMemoryBut (.aslZeroPageX d8) s
  case absolute =>
    rintro d16 rfl
    have hframe := instrEffect_sameMemoryBut (.aslAbsolute d16) s
    rwa [instrAddress_aslAbsolute] at hframe
  case absoluteX =>
    rintro d16 rfl
    have hframe := instrEffect_sameMemoryBut (.aslAbsoluteX d16) s
    rwa [instrAddress_aslAbsoluteX] at hframe

/-! ### Who reads a register: the address and the byte -/

/-- States with one memory that give an instruction one address give it one byte. -/
theorem instrByte_congr {i : Instr} {s t : State} (hmem : t.mem = s.mem) (haddr : instrAddress i t = instrAddress i s) :
    instrByte i t = instrByte i s := by
  unfold instrByte modeByte
  split
  · rfl
  · exact (State.readByte_congr hmem _).trans (congrArg s.readByte haddr)

theorem instrAddress_setA (i : Instr) (s : State) (v : Byte) : instrAddress i (s.setA v) = instrAddress i s := rfl

theorem instrAddress_setP (i : Instr) (s : State) (q : Byte) : instrAddress i (s.setP q) = instrAddress i s := rfl

theorem instrAddress_setX {i : Instr} (hreads : readsX i = false) (s : State) (v : Byte) :
    instrAddress i (s.setX v) = instrAddress i s := by
  unfold instrAddress
  revert hreads
  unfold readsX
  cases i.entry.mode
  case zeroPageX | absoluteX | indirectX => simp
  all_goals exact fun _ => rfl

theorem instrAddress_setY {i : Instr} (hreads : readsY i = false) (s : State) (v : Byte) :
    instrAddress i (s.setY v) = instrAddress i s := by
  unfold instrAddress
  revert hreads
  unfold readsY
  cases i.entry.mode
  case zeroPageY | absoluteY | indirectY => simp
  all_goals exact fun _ => rfl

theorem instrByte_setA (i : Instr) (s : State) (v : Byte) : instrByte i (s.setA v) = instrByte i s :=
  instrByte_congr rfl (instrAddress_setA i s v)

theorem instrByte_setP (i : Instr) (s : State) (q : Byte) : instrByte i (s.setP q) = instrByte i s :=
  instrByte_congr rfl (instrAddress_setP i s q)

theorem instrByte_setX {i : Instr} (hreads : readsX i = false) (s : State) (v : Byte) :
    instrByte i (s.setX v) = instrByte i s :=
  instrByte_congr rfl (instrAddress_setX hreads s v)

theorem instrByte_setY {i : Instr} (hreads : readsY i = false) (s : State) (v : Byte) :
    instrByte i (s.setY v) = instrByte i s :=
  instrByte_congr rfl (instrAddress_setY hreads s v)

/-! ### Who writes and who reads `A`, `X` and `Y` -/

theorem instrEffect_a {i : Instr} (hwrites : writesA i = false) (s : State) : (instrEffect i s).a = s.a := by
  unfold instrEffect
  revert hwrites
  unfold writesA
  cases i.entry.handler
  case lda | and | aslAccumulator => simp
  all_goals exact fun _ => rfl

theorem instrEffect_x {i : Instr} (hwrites : writesX i = false) (s : State) : (instrEffect i s).x = s.x := by
  unfold instrEffect
  revert hwrites
  unfold writesX
  cases i.entry.handler
  case tax | inx => simp
  all_goals exact fun _ => rfl

/-- An instruction that does not read `A` does the same with another `A`. -/
theorem instrEffect_setA {i : Instr} (hreads : readsA i = false) (s : State) (v : Byte) :
    instrEffect i (s.setA v) = if writesA i then instrEffect i s else (instrEffect i s).setA v := by
  rw [instrEffect, instrEffect, instrAddress_setA, instrByte_setA]
  revert hreads
  unfold readsA writesA
  cases i.entry.handler
  case tax | and | aslAccumulator | bit => simp
  all_goals exact fun _ => rfl

/-- An instruction that does not read `X` does the same with another `X`. -/
theorem instrEffect_setX {i : Instr} (hreads : readsX i = false) (s : State) (v : Byte) :
    instrEffect i (s.setX v) = if writesX i then instrEffect i s else (instrEffect i s).setX v := by
  rw [instrEffect, instrEffect, instrAddress_setX hreads, instrByte_setX hreads]
  revert hreads
  unfold readsX writesX
  cases i.entry.handler
  case inx => simp
  all_goals exact fun _ => rfl

/-- An instruction that does not read `Y` does the same with another `Y`. -/
theorem instrEffect_setY {i : Instr} (hreads : readsY i = false) (s : State) (v : Byte) :
    instrEffect i (s.setY v) = (instrEffect i s).setY v := by
  rw [instrEffect, instrEffect, instrAddress_setY hreads, instrByte_setY hreads]
  cases i.entry.handler <;> rfl

/-- Settles O42: what writes and what reads `A`, of the normal form. -/
theorem accumulatorReadersAndWriters : Obligations.AccumulatorReadersAndWriters :=
  fun i s v => ⟨_, _, exec_eq i s, exec_eq i (s.setA v), fun hwrites => instrEffect_a hwrites s,
    fun hreads => instrEffect_setA hreads s v⟩

/-- Settles O43: what writes and what reads `X`, of the normal form. -/
theorem xReadersAndWriters : Obligations.XReadersAndWriters :=
  fun i s v => ⟨_, _, exec_eq i s, exec_eq i (s.setX v), fun hwrites => instrEffect_x hwrites s,
    fun hreads => instrEffect_setX hreads s v⟩

/-- Settles O44: that nothing writes `Y`, and what reads it, of the normal form. -/
theorem yReaders : Obligations.YReaders :=
  fun i s v => ⟨_, _, exec_eq i s, exec_eq i (s.setY v), instrEffect_y i s, fun hreads => instrEffect_setY hreads s v⟩

/-! ### The bits of `P` -/

/-- `SetZN` on two status bytes: bits 1 and 7 come out the same, the others as they went in. -/
theorem setZN_getLsbD_split (v p q : Byte) (k : Nat) :
    (setZN v q).getLsbD k = if k == 1 || k == 7 then (setZN v p).getLsbD k else q.getLsbD k := by
  simp only [getLsbD_setZN]
  by_cases h7 : k = 7
  · simp [h7]
  · by_cases h1 : k = 1 <;> simp [h1, h7]

/-- ASL's flags on two status bytes: bits 0, 1 and 7 come out the same, the others as they went in. -/
theorem setAsl_getLsbD_split (v p q : Byte) (k : Nat) :
    (setAsl v q).getLsbD k = if k == 0 || k == 1 || k == 7 then (setAsl v p).getLsbD k else q.getLsbD k := by
  simp only [getLsbD_setAsl]
  by_cases h7 : k = 7
  · simp [h7]
  · by_cases h1 : k = 1
    · simp [h1]
    · by_cases h0 : k = 0 <;> simp [h0, h1, h7]

/-- BIT's flags on two status bytes: bits 1, 6 and 7 come out the same, the others as they went in. -/
theorem setBit_getLsbD_split (a m p q : Byte) (k : Nat) :
    (setBit a m q).getLsbD k = if k == 1 || k == 6 || k == 7 then (setBit a m p).getLsbD k else q.getLsbD k := by
  simp only [getLsbD_setBit]
  by_cases h6 : k = 6
  · simp [h6]
  · by_cases h7 : k = 7
    · simp [h7]
    · by_cases h1 : k = 1 <;> simp [h1, h6, h7]

/-- With another `P`, a bit the instruction writes comes out the same and a bit it does not write comes out as it went
in. -/
theorem instrEffect_setP_getLsbD (i : Instr) (s : State) (q : Byte) (k : Nat) :
    (instrEffect i (s.setP q)).p.getLsbD k = if writesBit i k then (instrEffect i s).p.getLsbD k else q.getLsbD k := by
  rw [instrEffect, instrEffect, instrAddress_setP, instrByte_setP]
  unfold writesBit
  cases i.entry.handler
  case bcs | beq | brk => rfl
  case lda | tax | inx | and => exact setZN_getLsbD_split _ _ _ _
  case aslAccumulator | aslMemory => exact setAsl_getLsbD_split _ _ _ _
  case bit => exact setBit_getLsbD_split _ _ _ _ _

/-- A bit the instruction does not write is kept. -/
theorem instrEffect_getLsbD_p {i : Instr} {k : Nat} (hwrites : writesBit i k = false) (s : State) :
    (instrEffect i s).p.getLsbD k = s.p.getLsbD k := by
  have hsame := instrEffect_setP_getLsbD i s s.p k
  rwa [hwrites, if_neg (by decide)] at hsame

/-- No instruction writes bits 2 to 5. -/
theorem writesBit_unassigned (i : Instr) {k : Nat} (hlo : 2 ≤ k) (hhi : k ≤ 5) : writesBit i k = false := by
  have h0 : k ≠ 0 := by omega
  have h1 : k ≠ 1 := by omega
  have h6 : k ≠ 6 := by omega
  have h7 : k ≠ 7 := by omega
  unfold writesBit
  cases i.entry.handler <;> simp [h0, h1, h6, h7]

/-- `P` shows outside `P` only through the one bit a branch tests. -/
theorem instrEffect_setP {i : Instr} {s : State} {q : Byte}
    (htested : isBranch i = true → q.getLsbD (if i.entry.handler = .bcs then 0 else 1) =
      s.p.getLsbD (if i.entry.handler = .bcs then 0 else 1)) :
    instrEffect i (s.setP q) = (instrEffect i s).setP (instrEffect i (s.setP q)).p := by
  rw [instrEffect, instrEffect, instrAddress_setP, instrByte_setP]
  revert htested
  unfold isBranch
  cases i.entry.handler
  case bcs =>
    intro htested
    have hcarry : Flag.carry.isSet q = Flag.carry.isSet s.p := htested rfl
    apply State.ext_fields <;> simp [handlerEffect, hcarry]
  case beq =>
    intro htested
    have hzero : Flag.zero.isSet q = Flag.zero.isSet s.p := htested rfl
    apply State.ext_fields <;> simp [handlerEffect, hzero]
  all_goals exact fun _ => rfl

/-- Settles O45: the bits of `P` of the normal form, and that nothing else depends on a bit not tested. -/
theorem flagReadersAndWriters : Obligations.FlagReadersAndWriters :=
  fun i s q => ⟨_, _, exec_eq i s, exec_eq i (s.setP q), fun _ hwrites => instrEffect_getLsbD_p hwrites s,
    instrEffect_setP_getLsbD i s q, instrEffect_setP⟩

end Sys2Proof.Machine
end

section
/-!
PROOFS. Words in memory (20_memory.md), the effective addresses and the resolver (40_dispatch_and_addressing.md section 2).
-/

namespace Sys2Proof.Machine

/-! ### Words -/

/-- Memory after `write_word` (R33): the two bytes at the address and the next one, every other cell as before. -/
theorem State.readByte_writeWord (s : State) (addr v b : Word) :
    (s.writeWord addr v).readByte b =
      if b = addr + 1 then highByte v else if b = addr then lowByte v else s.readByte b := by
  rw [State.writeWord, State.readByte_writeByte, State.readByte_writeByte]

theorem ne_add_one (addr : Word) : addr ≠ addr + 1 := by bv_omega

theorem State.readByte_writeWord_low (s : State) (addr v : Word) :
    (s.writeWord addr v).readByte addr = lowByte v := by
  rw [State.readByte_writeWord, if_neg (ne_add_one addr), if_pos rfl]

theorem State.readByte_writeWord_high (s : State) (addr v : Word) :
    (s.writeWord addr v).readByte (addr + 1) = highByte v := by
  rw [State.readByte_writeWord, if_pos rfl]

theorem State.readWord_writeWord (s : State) (addr v : Word) : (s.writeWord addr v).readWord addr = v := by
  rw [State.readWord, State.readByte_writeWord_low, State.readByte_writeWord_high, joinBytes_highByte_lowByte]

/-- Settles O21: the two cells `write_word` writes, joined again. -/
theorem wordRoundTrip : Obligations.WordRoundTrip := by
  intro s addr v
  refine ⟨s.readWord_writeWord addr v, ?low, ?high, fun b hlow hhigh => ?frame⟩
  case low => rw [State.readByte_writeWord_low, lowByte_toNat]
  case high => rw [State.readByte_writeWord_high, highByte_toNat]
  case frame => rw [State.readByte_writeWord, if_neg hhigh, if_neg hlow]

/-! ### Effective addresses -/

theorem zext16_toNat (b : Byte) : (zext16 b).toNat = b.toNat := by
  have := b.isLt
  simp [zext16]
  omega

/-- The engine's zero-page pointer is the word at its 16-bit address (decision D3). -/
theorem zpPointer_eq_readWord (p : Byte) (s : State) : zpPointer p s = s.readWord (zext16 p) := rfl

/-- Settles O13: each address is a sum of words or bytes, or the word a pointer names. -/
theorem indexedAndIndirectAddresses : Obligations.IndexedAndIndirectAddresses := by
  intro s d8 d16
  refine ⟨zext16_toNat d8, ?zeroPageX, ?zeroPageY, ?absoluteX, ?absoluteY, ?indirectX, ?indirectY⟩
  case zeroPageX => rw [eaZeroPageX, zext16_toNat, BitVec.toNat_add]
  case zeroPageY => rw [eaZeroPageY, zext16_toNat, BitVec.toNat_add]
  case absoluteX => rw [eaAbsoluteX, BitVec.toNat_add, zext16_toNat]
  case absoluteY => rw [eaAbsoluteY, BitVec.toNat_add, zext16_toNat]
  case indirectX => rw [eaIndirectX, zpPointer_eq_readWord, State.toNat_readWord, eaZeroPageX]
  case indirectY =>
    rw [eaIndirectY, zpPointer_eq_readWord, BitVec.toNat_add, State.toNat_readWord, zext16_toNat s.y, eaZeroPage]

/-! ### The resolver -/

/-- Settles O15: the resolver's answers, and a look at the modes of the 28 rows. -/
theorem resolverLongModes : Obligations.ResolverLongModes := by
  have hrows : ∀ row ∈ opcodeRows, row.entry.mode ≠ .zeroPageY := by decide
  exact ⟨fun s => ⟨rfl, rfl, rfl, rfl, rfl, rfl⟩, fun op e hentry => hrows _ (opcodeTable_mem hentry)⟩

/-- Settles O16: the only error of the resolver is mode `none`'s. -/
theorem resolverFailsOnNoneOnly : Obligations.ResolverFailsOnNoneOnly := by
  intro m s
  refine ⟨fun hm => resolve_error_iff.mpr ⟨hm, rfl⟩, fun hm => ?_⟩
  cases hresolve : resolve m s with
  | ok r => exact ⟨r, rfl⟩
  | error c => exact absurd (resolve_error_iff.mp hresolve).1 hm

/-! ### Branch offsets -/

/-- Settles O17: below 0x80 sign extension is zero extension; above it adds 0xFF00, and 0xFF00 + 0x100 is 0 modulo
65536. -/
theorem branchOffsetSettings : Obligations.BranchOffsetSettings := by
  intro d8
  refine ⟨fun hlow => ?low, fun hhigh => ?high, rfl⟩
  case low => exact if_pos hlow
  case high =>
    have hsigned : extOffset true d8 = zext16 d8 + 0xFF00 := if_neg (Nat.not_lt.mpr hhigh)
    rw [hsigned, BitVec.add_assoc]
    exact (BitVec.add_zero _).symm

end Sys2Proof.Machine
end

section
/-!
PROOFS. ASL (42_logic_shift_bittest.md section 2) and the branches (43_branch_halt.md section 1). ASL's flags come from the
bitwise law `getLsbD_setAsl`.
-/

namespace Sys2Proof.Machine

open Sys2Proof.Claims

/-! ### ASL -/

theorem shiftLeftOne_eq_two_mul (v : Byte) : shiftLeftOne v = 2 * v := by
  apply BitVec.eq_of_toNat_eq
  simp [shiftLeftOne, Nat.shiftLeft_eq, BitVec.toNat_mul, Nat.mul_comm]

theorem aslFlags_setAsl (v p : Byte) : AslFlags v p (setAsl v p) := by
  refine ⟨?carry, ?zero, ?negative, fun k hk0 hk1 hk7 => ?otherBits⟩
  case carry => rw [getLsbD_setAsl, if_neg (by decide), if_neg (by decide), if_pos rfl]
  case zero => rw [getLsbD_setAsl, if_neg (by decide), if_pos rfl, shiftLeftOne_eq_two_mul]
  case negative => rw [getLsbD_setAsl, if_pos rfl]; simp [shiftLeftOne]
  case otherBits => rw [getLsbD_setAsl, if_neg hk7, if_neg hk1, if_neg hk0]

/-- Settles O6: the accumulator form is its handler after a `pc` advance by one. -/
theorem aslShiftsTheAccumulator : Obligations.AslShiftsTheAccumulator :=
  fun s => ⟨handleAslAccumulator (s.advancePc 1), rfl, shiftLeftOne_eq_two_mul s.a, aslFlags_setAsl s.a s.p, rfl, rfl, rfl,
    State.readByte_congr rfl⟩

/-- A form that is ASL's memory handler after a `pc` advance shifts the cell at its address and keeps the rest. -/
theorem shiftsCell_of_exec_eq_handleAslMemory {i : Instr} {addr n : Word} {s : State}
    (hexec : exec i s = .next (handleAslMemory addr (s.advancePc n))) : ShiftsCell i addr s := by
  refine ⟨_, hexec, ?cell, aslFlags_setAsl _ s.p, rfl, rfl, rfl, rfl, fun b hb => ?frame⟩
  case cell => rw [handleAslMemory_readByte, if_pos rfl, shiftLeftOne_eq_two_mul, State.advancePc_readByte]
  case frame => rw [handleAslMemory_readByte, if_neg hb, State.advancePc_readByte]

/-- Settles O7: the four memory forms are one handler at their addresses. -/
theorem aslShiftsTheResolvedByte : Obligations.AslShiftsTheResolvedByte :=
  fun _ _ _ => ⟨shiftsCell_of_exec_eq_handleAslMemory rfl, shiftsCell_of_exec_eq_handleAslMemory rfl,
    shiftsCell_of_exec_eq_handleAslMemory rfl, shiftsCell_of_exec_eq_handleAslMemory rfl⟩

theorem head?_fetchBytes (s : State) : s.fetchBytes.head? = some (s.readByte s.pc) := rfl

/-- Settles O23: the byte at the new `pc` is a cell of the memory that ASL leaves. -/
theorem fetchSeesTheStore : Obligations.FetchSeesTheStore := by
  intro s d16
  refine ⟨handleAslMemory d16 (s.advancePc 3), rfl, ?_⟩
  have hpc : (handleAslMemory d16 (s.advancePc 3)).pc = s.pc + 3 := rfl
  rw [head?_fetchBytes, hpc, handleAslMemory_readByte, shiftLeftOne_eq_two_mul]
  rfl

/-! ### Branches -/

/-- A branch in every field, from `pc` at its opcode byte. -/
theorem branchIf_advancePc_eq (taken : Bool) (d8 : Byte) (s : State) :
    branchIf taken (branchDisplacement d8) (s.advancePc 2) =
      { s with pc := if taken then s.pc + 2 + d8.setWidth 16 else s.pc + 2 } :=
  branchIf_eq taken _ _

/-- Settles O9: each branch is `branchIf` on the flag it tests. -/
theorem branchesMovePcOnly : Obligations.BranchesMovePcOnly :=
  fun s d8 => ⟨congrArg Host.Outcome.next (branchIf_advancePc_eq (s.p.getLsbD 0) d8 s),
    congrArg Host.Outcome.next (branchIf_advancePc_eq (s.p.getLsbD 1) d8 s)⟩

end Sys2Proof.Machine
end

section
/-!
PROOFS. The step (40_dispatch_and_addressing.md R65; 60_exceptions.md): what it runs, what it records, and that it is the
spec's pseudocode.
-/

namespace Sys2Proof.Machine

/-! ### What is fetched -/

theorem State.fetch_of_decode {s : State} {i : Instr} {rest : List Byte} (h : decode s.fetchBytes = .ok (i, rest)) :
    s.fetch = some i := by
  simp only [State.fetch, h]

/-- What is fetched stands encoded at `pc`. -/
theorem State.fetchBytes_of_fetch {s : State} {i : Instr} (h : s.fetch = some i) :
    ∃ rest, s.fetchBytes = encode i ++ rest := by
  cases hdecode : decode s.fetchBytes with
  | error e => simp [State.fetch, hdecode] at h
  | ok r =>
    obtain ⟨j, rest⟩ := r
    have hji : j = i := Option.some.inj ((State.fetch_of_decode hdecode).symm.trans h)
    exact ⟨rest, hji ▸ eq_encode_append_of_decode hdecode⟩

/-- The byte at `pc` is the opcode of the instruction fetched. -/
theorem State.readByte_pc_of_fetch {s : State} {i : Instr} (h : s.fetch = some i) : s.readByte s.pc = i.opcode := by
  obtain ⟨rest, hbytes⟩ := State.fetchBytes_of_fetch h
  exact (List.cons.inj hbytes).1

/-- Only BRK has the opcode 0x00. -/
theorem opcode_eq_zero_iff {i : Instr} : i.opcode = 0x00 ↔ i = .brk := by
  cases i <;> simp [Instr.opcode]

/-- Where the first bytes of the fetch are an instruction's, that instruction is fetched. -/
theorem State.fetch_of_take {s : State} {i : Instr} (h : s.fetchBytes.take (encode i).length = encode i) :
    s.fetch = some i := by
  refine State.fetch_of_decode (rest := s.fetchBytes.drop (encode i).length) ?_
  have hsplit := List.take_append_drop (encode i).length s.fetchBytes
  rw [h] at hsplit
  rw [← hsplit, decode_encode_append, hsplit]

theorem length_le_three (i : Instr) : i.length ≤ 3 := by
  unfold Instr.length
  cases i.entry.mode <;> decide

theorem State.fetchBytes_getElem (s : State) (k : Nat) (hk : k < s.fetchBytes.length) :
    s.fetchBytes[k] = s.readByte (s.pc + BitVec.ofNat 16 k) := by
  match k, hk with
  | 0, _ => simp [State.fetchBytes]
  | 1, _ => rfl
  | 2, _ => rfl

/-- Settles O28: a running engine executes what it fetches. -/
theorem stepRunsTheDecodedInstruction : Obligations.StepRunsTheDecodedInstruction :=
  fun _ _ _ hrun hdecode => step_eq_exec_of_fetch hrun (State.fetch_of_decode hdecode)

/-- Settles O29: the bytes at `pc` are the beginning of the three fetched. -/
theorem stepRunsTheEncodedInstruction : Obligations.StepRunsTheEncodedInstruction := by
  intro s i hrun hbytes
  refine step_eq_exec_of_fetch hrun (State.fetch_of_take (List.ext_getElem ?length fun k hk hk' => ?byte))
  case length =>
    have hlen := length_le_three i
    rw [List.length_take, length_encode]
    exact Nat.min_eq_left hlen
  case byte =>
    rw [List.getElem_take, State.fetchBytes_getElem, hbytes k (length_encode i ▸ hk'), List.getD_eq_getElem _ _ hk']

/-! ### When a step is taken, and the two kinds of step -/

/-- An undefined opcode byte is recorded with its address, and nothing else changes (R156). -/
theorem step_of_undefined {s : State} (hrun : s.runState = .running) (hop : opcodeTable (s.readByte s.pc) = none) :
    step s = .next { s with runState := .faulted .illegalOpcode (s.readByte s.pc) s.pc } := by
  rw [← State.raise_eq]
  simp only [step, hrun, s.fetch_eq_none_iff.mpr hop]

/-- A running engine takes a step (R65). -/
theorem step_of_running {s : State} (hrun : s.runState = .running) : ∃ t, step s = .next t := by
  cases hfetch : s.fetch with
  | some i => exact ⟨_, (step_eq_exec_of_fetch hrun hfetch).trans (exec_eq i s)⟩
  | none => exact ⟨_, step_of_undefined hrun (s.fetch_eq_none_iff.mp hfetch)⟩

/-- What a step leaves: the effect of the instruction at `pc`, or the record of an undefined byte. -/
theorem step_next_cases {s t : State} (h : step s = .next t) :
    (∃ i, s.readByte s.pc = i.opcode ∧ t = instrEffect i s) ∨
      (opcodeTable (s.readByte s.pc) = none ∧
        t = { s with runState := .faulted .illegalOpcode (s.readByte s.pc) s.pc }) := by
  obtain ⟨-, ⟨i, hfetch, hexec⟩ | hundefined⟩ := step_cases h
  · exact .inl ⟨i, State.readByte_pc_of_fetch hfetch, (exec_eq_next_iff.mp hexec).symm⟩
  · exact .inr hundefined

/-- Settles O31: the three values of `run_state`. -/
theorem noStepUnlessRunning : Obligations.NoStepUnlessRunning := by
  intro s
  refine ⟨fun hhalted => ?halted, fun c op addr hfaulted => ?faulted, step_of_running⟩
  case halted => simp only [step, hhalted]
  case faulted => simp only [step, hfaulted]

/-- Settles O32: the fetch finds no instruction. -/
theorem illegalOpcodeChangesRunStateOnly : Obligations.IllegalOpcodeChangesRunStateOnly :=
  fun _ hrun hop => step_of_undefined hrun hop

/-- Settles O33: an instruction halts or keeps the run going; the other kind of step is the record. -/
theorem illegalOpcodeIsTheOnlyFault : Obligations.IllegalOpcodeIsTheOnlyFault := by
  intro s t h
  have hrun : s.runState = .running := (step_cases h).1
  obtain ⟨i, -, rfl⟩ | ⟨hop, rfl⟩ := step_next_cases h
  · rw [instrEffect_runState, hrun]
    by_cases hbrk : i = .brk
    · exact .inr (.inl (if_pos hbrk))
    · exact .inl (if_neg hbrk)
  · exact .inr (.inr ⟨rfl, hop⟩)

/-- `Halted` is entered on the opcode 0x00 alone: it is BRK's, and only BRK halts. -/
theorem step_halted_iff {s t : State} (h : step s = .next t) : t.runState = .halted ↔ s.readByte s.pc = 0x00 := by
  have hrun : s.runState = .running := (step_cases h).1
  obtain ⟨i, hop, rfl⟩ | ⟨hop, rfl⟩ := step_next_cases h
  · rw [hop, opcode_eq_zero_iff, instrEffect_runState, hrun]
    by_cases hbrk : i = .brk <;> simp [hbrk]
  · have hne : s.readByte s.pc ≠ 0x00 := by
      intro hzero
      rw [hzero] at hop
      exact absurd hop (by decide)
    exact iff_of_false (by simp) hne

/-- Settles O34: as `step_halted_iff`. -/
theorem haltedExactlyOnOpcodeZero : Obligations.HaltedExactlyOnOpcodeZero := fun _ _ h => step_halted_iff h

/-- Settles O39: `Y` and the bits no instruction writes; the record writes neither. -/
theorem stepKeepsYAndUnassignedBits : Obligations.StepKeepsYAndUnassignedBits := by
  intro s t h
  obtain ⟨i, -, rfl⟩ | ⟨-, rfl⟩ := step_next_cases h
  · exact ⟨instrEffect_y i s, fun k hlo hhi => instrEffect_getLsbD_p (writesBit_unassigned i hlo hhi) s⟩
  · exact ⟨rfl, fun _ _ _ => rfl⟩

/-! ### The spec's pseudocode -/

theorem engineStep_of_undefined {table : Byte → Option Entry} {s : State} (h : table (s.readByte s.pc) = none) :
    engineStep table s = s.raise .illegalOpcode (s.readByte s.pc) s.pc := by
  simp only [engineStep, h]

/-- A valid entry: the pseudocode runs it on the operand bytes in memory, be its mode `none` or not. -/
theorem engineStep_of_wf {table : Byte → Option Entry} {s : State} {e : Entry} (h : table (s.readByte s.pc) = some e)
    (hwf : e.wf = true) :
    engineStep table s = entryEffect (s.readByte (s.pc + 1)) (s.readByte (s.pc + 2)) e s := by
  have hpc : s.setPc (s.pc + 1) = s.advancePc 1 := rfl
  obtain ⟨hd, m⟩ := e
  by_cases hm : m = .none
  · subst hm
    have huses : hd.usesAddress = false := by simpa [Entry.wf] using hwf
    simp only [engineStep, h, huses, bne_self_eq_false, Bool.or_self, Bool.false_eq_true, if_false, runHandler_eq]
    rfl
  · have hmode : (m != .none) = true := by simpa using hm
    simp only [engineStep, h, hmode, Bool.or_true, if_true, hpc, resolve_advancePc_one hm, runHandler_eq, entryEffect,
      modeByte_eq_readByte, State.advancePc_readByte]

/-- An invalid entry: the resolver is asked for an address under mode `none` (R152). -/
theorem engineStep_of_not_wf {table : Byte → Option Entry} {s : State} {e : Entry}
    (h : table (s.readByte s.pc) = some e) (hwf : e.wf = false) :
    engineStep table s = s.raise .invalidAddressingMode (s.readByte s.pc) s.pc := by
  obtain ⟨huses, hm⟩ : e.handler.usesAddress = true ∧ e.mode = .none := by simpa [Entry.wf] using hwf
  simp [engineStep, h, huses, hm, resolve]

/-- The rows of the map stand for forms, and forms are well-formed. -/
theorem opcodeTable_wf {op : Byte} {e : Entry} (h : opcodeTable op = some e) : e.wf = true := by
  obtain ⟨⟨i, hi⟩, -⟩ := opcodeRows_instr (opcodeTable_mem h) 0 0
  obtain ⟨hwf, -, -⟩ := encodedForm i
  obtain ⟨rfl, -⟩ := Entry.instr_eq_some hi
  exact hwf

/-- No handler raises a fault. -/
theorem entryEffect_runState (o1 o2 : Byte) (e : Entry) (s : State) :
    (entryEffect o1 o2 e s).runState = s.runState ∨ (entryEffect o1 o2 e s).runState = .halted := by
  unfold entryEffect
  cases e.handler
  case brk => exact .inr rfl
  all_goals exact .inl rfl

/-- Settles O30: on a defined byte both run the entry on the operand bytes in memory, else both raise. -/
theorem stepIsThePseudocode : Obligations.StepIsThePseudocode := by
  intro s hrun
  cases hentry : opcodeTable (s.readByte s.pc) with
  | none => rw [step_of_undefined hrun hentry, engineStep_of_undefined hentry, State.raise_eq]
  | some e =>
    obtain ⟨⟨i, hform⟩, -⟩ :=
      opcodeRows_instr (opcodeTable_mem hentry) (s.readByte (s.pc + 1)) (s.readByte (s.pc + 2))
    have hfetch : s.fetch = some i := (State.fetch_of_entry hentry).trans hform
    rw [step_eq_exec_of_fetch hrun hfetch, exec_of_entry_instr hform, engineStep_of_wf hentry (opcodeTable_wf hentry)]

/-- Settles O35: an undefined byte is another fault, a valid entry none, and an invalid entry this one. -/
theorem validTableNeverAsksForNone : Obligations.ValidTableNeverAsksForNone := by
  intro table s hrun
  refine ⟨fun hvalid op addr => ?valid, fun e hentry hwf => engineStep_of_not_wf hentry hwf⟩
  case valid =>
    cases hentry : table (s.readByte s.pc) with
    | none => simp [engineStep_of_undefined hentry, State.raise_eq]
    | some e =>
      rw [engineStep_of_wf hentry (hvalid _ e hentry)]
      obtain hkept | hhalted := entryEffect_runState (s.readByte (s.pc + 1)) (s.readByte (s.pc + 2)) e s
      · rw [hkept, hrun]; exact nofun
      · rw [hhalted]; exact nofun

end Sys2Proof.Machine
end

section
/-!
PROOFS. The host interface (70_reset_and_hazards.md): what `load_program` leaves in memory, the launch state of
`run_program`, the refusals, the accessors and the report.
-/

namespace Sys2Proof.Machine

/-! ### `load_program` -/

/-- A copy writes memory only. -/
theorem State.writeBytes_eq (addr : Word) (bytes : List Byte) (s : State) :
    s.writeBytes addr bytes = s.setMem (s.writeBytes addr bytes).mem := by
  induction bytes generalizing addr s with
  | nil => rfl
  | cons b bytes ih => rw [State.writeBytes, ih]; rfl

/-- `load_program` writes memory only. -/
theorem State.loadImage_eq (bytes : List Byte) (s : State) :
    s.loadImage bytes = s.setMem (s.loadImage bytes).mem := by
  rw [State.loadImage, State.writeBytes_eq]; rfl

/-- Memory after a copy that does not reach the top of memory (R174): the copied bytes from the address on, every other
cell as before. -/
theorem State.readByte_writeBytes {addr : Word} {bytes : List Byte} (hfits : addr.toNat + bytes.length < 65536)
    (s : State) (b : Word) :
    (s.writeBytes addr bytes).readByte b =
      if addr.toNat ≤ b.toNat ∧ b.toNat < addr.toNat + bytes.length then bytes.getD (b.toNat - addr.toNat) 0
      else s.readByte b := by
  induction bytes generalizing addr s with
  | nil => rw [State.writeBytes, if_neg (by simp)]
  | cons v bytes ih =>
    rw [List.length_cons] at hfits ⊢
    have hnext : (addr + 1).toNat = addr.toNat + 1 := by
      rw [BitVec.toNat_add]; exact Nat.mod_eq_of_lt (by simp; omega)
    rw [State.writeBytes, ih (by omega), hnext, State.readByte_writeByte]
    by_cases hb : b = addr
    · subst hb
      rw [if_neg (by omega), if_pos rfl, if_pos (by omega), Nat.sub_self, List.getD_cons_zero]
    · have hne : b.toNat ≠ addr.toNat := fun h => hb (BitVec.eq_of_toNat_eq h)
      by_cases hin : addr.toNat + 1 ≤ b.toNat ∧ b.toNat < addr.toNat + 1 + bytes.length
      · have hindex : b.toNat - addr.toNat = b.toNat - (addr.toNat + 1) + 1 := by omega
        rw [if_pos hin, if_pos (by omega), hindex, List.getD_cons_succ]
      · rw [if_neg hin, if_neg hb, if_neg (by omega)]

/-- Memory after `load_program`, the vector's cells first: an accepted image does not reach them. -/
theorem State.readByte_loadImage {bytes : List Byte} (hcap : bytes.length ≤ 0x7FFC) (s : State) (b : Word) :
    (s.loadImage bytes).readByte b =
      if b = 0xFFFC then 0x00 else if b = 0xFFFD then 0x80
      else if 0x8000 ≤ b.toNat ∧ b.toNat < 0x8000 + bytes.length then bytes.getD (b.toNat - 0x8000) 0
      else s.readByte b := by
  have horigin : Config.loadOrigin.toNat = 0x8000 := rfl
  have hfits : Config.loadOrigin.toNat + bytes.length < 65536 := by omega
  have hvector : Config.resetVector + 1 = 0xFFFD := rfl
  rw [State.loadImage, State.readByte_writeWord, State.readByte_writeBytes hfits, horigin, hvector, Config.resetVector]
  by_cases hlow : b = 0xFFFC
  · subst hlow; rfl
  · rw [if_neg hlow]
    by_cases hhigh : b = 0xFFFD
    · subst hhigh; rfl
    · rw [if_neg hhigh, if_neg hhigh, if_neg hlow]

/-- `load_program` keeps a low half of memory that reads zero: it writes from 0x8000 on. -/
theorem State.loadImage_keeps_lowMemoryZero {bytes : List Byte} {s : State} (hcap : bytes.length ≤ 0x7FFC)
    (hs : s.lowMemoryZero) : (s.loadImage bytes).lowMemoryZero := by
  intro b hb
  have hlow : b ≠ 0xFFFC := by rintro rfl; exact absurd hb (by decide)
  have hhigh : b ≠ 0xFFFD := by rintro rfl; exact absurd hb (by decide)
  rw [State.readByte_loadImage hcap, if_neg hlow, if_neg hhigh, if_neg (by omega), hs b hb]

/-- The reset vector after `load_program` holds the load origin. -/
theorem State.readWord_loadImage (bytes : List Byte) (s : State) :
    (s.loadImage bytes).readWord Config.resetVector = 0x8000 :=
  State.readWord_writeWord _ _ _

theorem loadProgram_of_le {bytes : List Byte} (hcap : bytes.length ≤ 0x7FFC) (s : State) :
    s.loadProgram bytes = .next (s.loadImage bytes) := by
  rw [State.loadProgram, Config.loadCapacity, if_pos hcap]

theorem loadProgram_of_lt {bytes : List Byte} (hcap : 0x7FFC < bytes.length) (s : State) :
    s.loadProgram bytes = .refused .loadOverflow := by
  rw [State.loadProgram, Config.loadCapacity, if_neg (Nat.not_le.mpr hcap)]

theorem hostCommand_loadProgram {s : State} (hidle : s.runState ≠ .running) (bytes : List Byte) :
    hostCommand (.loadProgram bytes) s = s.loadProgram bytes :=
  if_neg hidle

/-- Settles O48: the result is `State.loadImage`. -/
theorem loadProgramWritesImageAndVector : Obligations.LoadProgramWritesImageAndVector := by
  intro bytes s hidle hcap
  refine ⟨s.loadImage bytes, ?answer, s.readByte_loadImage hcap, ?registers, ?runState⟩
  case answer => rw [hostCommand_loadProgram hidle, loadProgram_of_le hcap]
  case registers => rw [State.loadImage_eq]; rfl
  case runState => rw [State.loadImage_eq]; rfl

/-! ### `run_program` -/

/-- The launch state (R176): `load_program`, `reset()`, the loop entered. -/
def launchState (bytes : List Byte) (s : State) : State := (s.loadImage bytes).hostReset.enterRun

/-- The launch state in every field. -/
theorem launchState_eq (bytes : List Byte) (s : State) :
    launchState bytes s =
      { a := 0, x := 0, y := 0, p := 0, pc := 0x8000, mem := (s.loadImage bytes).mem, runState := .running } := by
  rw [launchState, State.hostReset_eq, State.readWord_loadImage, State.enterRun_eq]

theorem hostCommand_runProgram_of_le {bytes : List Byte} {s : State} (hidle : s.runState ≠ .running)
    (hcap : bytes.length ≤ 0x7FFC) : hostCommand (.runProgram bytes) s = .next (launchState bytes s) := by
  simp only [hostCommand, if_neg hidle, loadProgram_of_le hcap, launchState]

theorem hostCommand_runProgram_of_lt {bytes : List Byte} {s : State} (hidle : s.runState ≠ .running)
    (hcap : 0x7FFC < bytes.length) : hostCommand (.runProgram bytes) s = .refused .loadOverflow := by
  simp only [hostCommand, if_neg hidle, loadProgram_of_lt hcap]

theorem hostCommand_of_running {s : State} (hrun : s.runState = .running) (c : HostCommand) :
    hostCommand c s = .refused .engineRunning :=
  if_pos hrun

/-- `run_program` answers the launch state or none. -/
theorem eq_launchState_of_runProgram {bytes : List Byte} {s t : State}
    (h : hostCommand (.runProgram bytes) s = .next t) : t = launchState bytes s := by
  by_cases hrun : s.runState = .running
  · rw [hostCommand_of_running hrun] at h; cases h
  · obtain hcap | hcap := le_or_gt bytes.length 0x7FFC
    · rw [hostCommand_runProgram_of_le hrun hcap] at h
      exact (Host.Outcome.next.inj h).symm
    · rw [hostCommand_runProgram_of_lt hrun hcap] at h; cases h

/-- Settles O49: the image does not fit. -/
theorem loadOverflowIsRefused : Obligations.LoadOverflowIsRefused := by
  intro bytes s hidle hcap
  refine ⟨?_, hostCommand_runProgram_of_lt hidle hcap⟩
  rw [hostCommand_loadProgram hidle, loadProgram_of_lt hcap]

/-- Settles O50: the fields of the launch state. -/
theorem runProgramLaunchState : Obligations.RunProgramLaunchState := by
  intro bytes s hidle hcap
  refine ⟨s.loadImage bytes, launchState bytes s, ?load, hostCommand_runProgram_of_le hidle hcap, ?fields⟩
  case load => rw [hostCommand_loadProgram hidle, loadProgram_of_le hcap]
  case fields =>
    rw [launchState_eq]
    exact ⟨rfl, rfl, rfl⟩

/-! ### The canonical form of memory -/

theorem State.writeBytes_wf (addr : Word) (bytes : List Byte) (s : State) (h : Memory.wf s.mem = true) :
    Memory.wf (s.writeBytes addr bytes).mem = true := by
  induction bytes generalizing addr s with
  | nil => exact h
  | cons b bytes ih => exact ih _ _ (s.writeByte_wf addr b h)

theorem State.loadImage_wf (bytes : List Byte) (s : State) (h : Memory.wf s.mem = true) :
    Memory.wf (s.loadImage bytes).mem = true :=
  State.writeByte_wf _ _ _ (State.writeByte_wf _ _ _ (State.writeBytes_wf _ _ _ h))

theorem State.loadProgram_wf {bytes : List Byte} {s t : State} (hs : Memory.wf s.mem = true)
    (h : s.loadProgram bytes = .next t) : Memory.wf t.mem = true := by
  obtain hcap | hcap := le_or_gt bytes.length 0x7FFC
  · rw [loadProgram_of_le hcap] at h
    cases h
    exact s.loadImage_wf bytes hs
  · rw [loadProgram_of_lt hcap] at h
    cases h

/-- Settles O37: the commands that write memory do it by `write_byte`; the others leave it. -/
theorem hostKeepsMemoryCanonical : Obligations.HostKeepsMemoryCanonical := by
  intro c s t hs h
  unfold State.memoryCanonical at hs ⊢
  by_cases hrun : s.runState = .running
  · rw [hostCommand_of_running hrun] at h; cases h
  · cases c with
    | loadProgram bytes =>
      rw [hostCommand_loadProgram hrun] at h
      exact State.loadProgram_wf hs h
    | runProgram bytes =>
      rw [eq_launchState_of_runProgram h, launchState_eq]
      exact s.loadImage_wf bytes hs
    | pokeByte addr v =>
      rw [hostCommand, if_neg hrun] at h
      cases h
      exact s.writeByte_wf addr v hs
    | reset | interpret | pokeRegisters =>
      rw [hostCommand, if_neg hrun] at h
      cases h
      exact hs

/-! ### `reset()`, the accessors, the report and the moves refused -/

/-- Settles O38: the fields of the reset state; its memory lists no cell. -/
theorem resetState : Obligations.ResetState :=
  ⟨rfl, rfl, rfl, rfl, rfl, fun _ => rfl, rfl, rfl, ⟨rfl, fun _ _ _ => BitVec.getLsbD_zero⟩, fun _ _ => rfl⟩

/-- Settles O47: `reset()` writes constants and the vector's word, and leaves the vector. -/
theorem hostResetTwice : Obligations.HostResetTwice := by
  intro s
  have hvector : s.hostReset.readWord Config.resetVector = s.readWord Config.resetVector := rfl
  rw [State.hostReset_eq s.hostReset, hvector, State.hostReset_eq]

/-- Settles O51: both are guarded by `run_state`. -/
theorem hostHasNoMoveDuringARun : Obligations.HostHasNoMoveDuringARun :=
  fun c _ hrun => ⟨hostCommand_of_running hrun c, if_pos hrun⟩

/-- Settles O56: the guard passes, and the register file is the five registers. -/
theorem accessorsReadTheRegisters : Obligations.AccessorsReadTheRegisters := fun _ hidle => if_neg hidle

/-- Settles O52: `interpret()` restores `run_state`, the only thing the fault changed. -/
theorem interpretAfterAFaultFaultsAgain : Obligations.InterpretAfterAFaultFaultsAgain := by
  intro s t hrun hop hstep
  rw [step_of_undefined hrun hop] at hstep
  cases hstep
  refine ⟨{ s with runState := .running }, hostCommand_interpret (by simp), ?_⟩
  exact step_of_undefined (s := { s with runState := .running }) rfl hop

/-- Settles O53: the report of each value of `run_state`. -/
theorem reportSaysHowTheRunEnded : Obligations.ReportSaysHowTheRunEnded := by
  intro s
  unfold State.report State.endedWell
  cases s.runState <;> simp

end Sys2Proof.Machine
end

section
/-!
PROOFS. Runs from `run_program`: the production invariant (10_state.md section 8) and the end of every run over a zero low
half of memory (43_branch_halt.md R139). There, `pc` rises with every step until it wraps; below 0x8000 it meets the opcode
0x00, which is BRK.
-/

namespace Sys2Proof.Machine

/-! ### The production invariant -/

theorem step_keeps_productionInv {s t : State} (hs : s.productionInv) (h : step s = .next t) : t.productionInv := by
  obtain ⟨hsy, hsp⟩ := hs
  obtain ⟨hy, hp⟩ := stepKeepsYAndUnassignedBits s t h
  exact ⟨hy.trans hsy, fun k hlo hhi => (hp k hlo hhi).trans (hsp k hlo hhi)⟩

theorem launchState_productionInv (bytes : List Byte) (s : State) : (launchState bytes s).productionInv := by
  rw [launchState_eq]
  exact ⟨rfl, fun _ _ _ => BitVec.getLsbD_zero⟩

/-- Settles O40: the invariant holds at launch and every step keeps it. -/
theorem runProgramKeepsProductionInvariant : Obligations.RunProgramKeepsProductionInvariant := by
  intro bytes s t u hlaunch hreach
  rw [eq_launchState_of_runProgram hlaunch] at hreach
  exact hreach.invariant (fun _ _ => step_keeps_productionInv) (launchState_productionInv bytes s)

/-! ### The end of a run -/

/-- A bound on the steps left in a run over a zero low half of memory: one below 0x8000, else one for each address up to the
top and one after the wrap. -/
def stepsLeft (s : State) : Nat := if s.pc.toNat < 0x8000 then 1 else 0x10001 - s.pc.toNat

/-- An instruction moves `pc` forward, by at most its length and an offset byte. -/
theorem instrEffect_pc_advance (i : Instr) (s : State) :
    ∃ n, 1 ≤ n ∧ n ≤ 258 ∧ (instrEffect i s).pc.toNat = (s.pc.toNat + n) % 65536 := by
  obtain ⟨d, -, hpc⟩ := instrEffect_pc i s
  have hlen := length_le_three i
  have hpos : 1 ≤ i.length := Nat.le_add_right 1 _
  have hd := d.isLt
  refine ⟨i.length + d.toNat, by omega, by omega, ?_⟩
  rw [hpc, BitVec.toNat_add, BitVec.toNat_add, zext16_toNat, BitVec.toNat_ofNat]
  omega

/-- Each step of such a run ends it or leaves fewer steps. -/
theorem step_ends_or_stepsLeft_lt {s t : State} (hlow : s.lowMemoryZero) (h : step s = .next t) :
    t.runState ≠ .running ∨ stepsLeft t < stepsLeft s := by
  by_cases hpc : s.pc.toNat < 0x8000
  · have hhalted : t.runState = .halted := (step_halted_iff h).mpr (hlow s.pc hpc)
    exact .inl (by simp [hhalted])
  · obtain ⟨i, -, rfl⟩ | ⟨-, rfl⟩ := step_next_cases h
    · obtain ⟨n, hpos, hle, hnext⟩ := instrEffect_pc_advance i s
      have htop := s.pc.isLt
      refine .inr ?_
      unfold stepsLeft
      rw [hnext]
      split <;> omega
    · exact .inl (by simp)

/-- Outside a run the loop does nothing. -/
theorem runFor_of_not_running {s : State} (hidle : s.runState ≠ .running) (n : Nat) : runFor n s = s := by
  cases n with
  | zero => rfl
  | succ n =>
    cases hr : s.runState with
    | running => exact absurd hr hidle
    | halted => simp only [runFor, step, hr]
    | faulted cause op addr => simp only [runFor, step, hr]

theorem runFor_succ_of_step {s t : State} (h : step s = .next t) (n : Nat) : runFor (n + 1) s = runFor n t := by
  simp only [runFor, h]

theorem stepsLeft_pos (s : State) : 0 < stepsLeft s := by
  have := s.pc.isLt
  unfold stepsLeft
  split <;> omega

/-- Over a zero low half of memory the loop ends within the bound. -/
theorem runFor_ends {n : Nat} {s : State} (hlow : s.lowMemoryZero) (hn : stepsLeft s ≤ n) :
    (runFor n s).runState ≠ .running := by
  induction n generalizing s with
  | zero => exact absurd (stepsLeft_pos s) (by omega)
  | succ n ih =>
    by_cases hrun : s.runState = .running
    · obtain ⟨t, hstep⟩ := step_of_running hrun
      rw [runFor_succ_of_step hstep]
      obtain hended | hless := step_ends_or_stepsLeft_lt hlow hstep
      · rwa [runFor_of_not_running hended]
      · exact ih (step_keeps_lowMemoryZero hlow hstep) (by omega)
    · rwa [runFor_of_not_running hrun]

/-- A run that is over ended well or in a fault (R186). -/
theorem ended_of_not_running {s : State} (h : s.runState ≠ .running) : s.endedWell ∨ s.endedInFault := by
  unfold State.endedWell State.endedInFault
  cases hr : s.runState with
  | running => exact absurd hr h
  | halted => exact .inl rfl
  | faulted cause op addr => exact .inr ⟨cause, op, addr, rfl⟩

theorem launchState_lowMemoryZero {bytes : List Byte} {s : State} (hcap : bytes.length ≤ 0x7FFC)
    (hs : s.lowMemoryZero) : (launchState bytes s).lowMemoryZero := by
  intro b hb
  have hmem : (launchState bytes s).mem = (s.loadImage bytes).mem := by rw [launchState_eq]
  rw [State.readByte_congr hmem, s.loadImage_keeps_lowMemoryZero hcap hs b hb]

theorem stepsLeft_launchState (bytes : List Byte) (s : State) : stepsLeft (launchState bytes s) = 0x8001 := by
  have hpc : (launchState bytes s).pc = 0x8000 := by rw [launchState_eq]
  rw [stepsLeft, hpc, if_neg (by decide)]
  decide

/-- Settles O41: the launch state has 0x8001 steps left. -/
theorem runProgramEnds : Obligations.RunProgramEnds := by
  intro bytes s hidle hcap hlow
  refine ⟨_, 0x8001, hostCommand_runProgram_of_le hidle hcap, Nat.le_refl _, ended_of_not_running ?_⟩
  exact runFor_ends (launchState_lowMemoryZero hcap hlow) (stepsLeft_launchState bytes s).le

end Sys2Proof.Machine
end
